-- ==== Sys2Proof/Word.lean ====
section
/-!
DEFINITION. The words of the Flux BPU: operand registers, command words, register numbers and the
operation width (10_state.md R20, 30_encoding.md R70, R74, R75).
-/

namespace Sys2Proof

/-- The content of an operand register, 64 bits (10_state.md R20). -/
abbrev Word := BitVec 64

/-- A command word, 32 bits (30_encoding.md R70). -/
abbrev CmdWord := BitVec 32

/-- A register number, 4 bits, naming x0 to x15 (30_encoding.md R75). -/
abbrev Reg := BitVec 4

/-- A byte of the register window (20_memory.md R51). -/
abbrev Byte := BitVec 8

/-- The operation width that a command's W field selects (30_encoding.md R74). -/
inductive Width where
  | w8
  | w16
  | w32
  | w64
deriving DecidableEq, Repr

end Sys2Proof
end

