-- ==== Sys2Proof/Machine/Bits.lean ====
section
/-!
DEFINITION. The bit-level functions that the command rules share (00_scope.md R7, R8): counting bits, finding the
highest and the lowest 1-bit, building a pattern bit by bit, and the signed and unsigned readings of a pattern.
-/

namespace Sys2Proof.Machine

/-- The `n`-bit pattern whose bit `i` is `f i` (00_scope.md R7). -/
def patternOf : (n : Nat) → (Nat → Bool) → BitVec n
  | 0, _ => 0#0
  | n + 1, f => BitVec.cons (f n) (patternOf n f)

/-- How many `i < n` have `p i`. -/
def countBelow (p : Nat → Bool) : Nat → Nat
  | 0 => 0
  | n + 1 => countBelow p n + (p n).toNat

/-- The greatest `i < n` with `p i`. -/
def highestBelow (p : Nat → Bool) : Nat → Option Nat
  | 0 => none
  | n + 1 => if p n then some n else highestBelow p n

/-- The least `i < n` with `p i`. -/
def lowestBelow (p : Nat → Bool) : Nat → Option Nat
  | 0 => none
  | n + 1 =>
    match lowestBelow p n with
    | some i => some i
    | none => if p n then some n else none

/-- `uint_w` (00_scope.md R8). -/
def uint {n : Nat} (v : BitVec n) : Nat := v.toNat

/-- `sint_w`, the two's-complement reading (00_scope.md R8). -/
def sint {n : Nat} (v : BitVec n) : Int :=
  if v.getLsbD (n - 1) then (v.toNat : Int) - 2 ^ n else (v.toNat : Int)

/-- `pat_w` of an integer: the pattern of its residue modulo 2^w (00_scope.md R8). -/
def pat (n : Nat) (z : Int) : BitVec n := BitVec.ofInt n z

/-- `pat_w` of a natural number (00_scope.md R8). -/
def patNat (n : Nat) (k : Nat) : BitVec n := BitVec.ofNat n k

/-- The number of 1-bits (40_bit_primitives.md R110). -/
def popCount {n : Nat} (a : BitVec n) : Nat := countBelow a.getLsbD n

/-- The count of 0-bits above the most significant 1-bit, `w` for 0 (40_bit_primitives.md R111). -/
def leadingZeros {n : Nat} (a : BitVec n) : Nat :=
  match highestBelow a.getLsbD n with
  | none => n
  | some i => n - 1 - i

/-- The count of 0-bits below the least significant 1-bit, `w` for 0 (40_bit_primitives.md R112). -/
def trailingZeros {n : Nat} (a : BitVec n) : Nat :=
  match lowestBelow a.getLsbD n with
  | none => n
  | some i => i

/-- The position of the most significant 1-bit plus one, 0 for 0 (40_bit_primitives.md R113). -/
def bitLength {n : Nat} (a : BitVec n) : Nat :=
  match highestBelow a.getLsbD n with
  | none => 0
  | some i => i + 1

/-- The least significant 1-bit alone (40_bit_primitives.md R114). -/
def isolateLow {n : Nat} (a : BitVec n) : BitVec n := a &&& patNat n (uint (~~~a) + 1)

/-- The most significant 1-bit alone, 0 for 0 (40_bit_primitives.md R115). -/
def isolateHigh {n : Nat} (a : BitVec n) : BitVec n :=
  if a = 0 then 0 else 1#n <<< (bitLength a - 1)

/-- All ones from the most significant 1-bit down, 0 for 0 (40_bit_primitives.md R116). The pattern rule holds for
negative readings too (90_conflicts.md C3; notes/assumptions/11.md). -/
def foldDown {n : Nat} (a : BitVec n) : BitVec n :=
  if a = 0 then 0 else patNat n (2 ^ bitLength a - 1)

/-- All ones from the least significant 1-bit up, 0 for 0 (40_bit_primitives.md R117; notes/assumptions/11.md). -/
def foldUp {n : Nat} (a : BitVec n) : BitVec n :=
  if a = 0 then 0 else patNat n (2 ^ n - 2 ^ trailingZeros a)

/-- Bit `i` becomes bit `w-1-i` (40_bit_primitives.md R120). -/
def reverseBits {n : Nat} (a : BitVec n) : BitVec n := patternOf n fun i => a.getLsbD (n - 1 - i)

/-- Byte `k` becomes byte `w/8-1-k`, the bits inside a byte keep their order (40_bit_primitives.md R121). -/
def reverseBytes {n : Nat} (a : BitVec n) : BitVec n :=
  patternOf n fun i => a.getLsbD (8 * (n / 8 - 1 - i / 8) + i % 8)

/-- Binary to Gray code, the shift logical at every width (40_bit_primitives.md R122). -/
def toGray {n : Nat} (a : BitVec n) : BitVec n := a ^^^ (a >>> 1)

/-- The exclusive or of `a >>u s` over `s < k` (40_bit_primitives.md R123). -/
def xorShifts {n : Nat} (a : BitVec n) : Nat → BitVec n
  | 0 => 0
  | k + 1 => xorShifts a k ^^^ (a >>> k)

/-- Gray code to binary (40_bit_primitives.md R123). -/
def fromGray {n : Nat} (a : BitVec n) : BitVec n := xorShifts a n

/-- `MulMod(x, y, m)` on natural numbers (42_modular.md R181). -/
def mulModNat (x y m : Nat) : Nat := x * y % m

/-- The left-to-right square-and-multiply loop over the exponent bits `k-1` down to 0 (42_modular.md R181). -/
def powModLoop (base e m : Nat) : Nat → Nat → Nat
  | 0, r => r
  | k + 1, r =>
    let squared := mulModNat r r m
    powModLoop base e m k (if e.testBit k then mulModNat squared base m else squared)

end Sys2Proof.Machine
end

