-- ==== Sys2Proof/Config.lean ====
section
/-!
DEFINITION. What the implementation fixes and what the spec leaves open: the identification value and the
latency of a command (00_scope.md R6). BPU_BASE and IRQ_ROUTE are the platform's and stand outside the unit
(notes/assumptions/12.md).
-/

namespace Sys2Proof.Config

/-- The constant ID register (10_state.md R34). -/
def idValue : BitVec 32 := 0x46500100#32

/-- The value each operand register holds right after a hardware reset. The spec leaves it unspecified
(10_state.md R23). DESIGN CHOICE, unsafe: notes/assumptions/1.md. -/
def powerOnOperand : Word := 0#64

/-- A FREE VALUE: how many unit clock cycles MORE THAN ONE a command takes from issue to its end, so that LAT
is positive and finite, and may depend on the opcode, the width, the latched operands a, b, c and idx, and LI's
immediate (70_reset_and_hazards.md R253). Whether the immediate is one of the operand values of R253 the spec leaves
open; that it is counted as one is a DESIGN CHOICE. Nothing constrains the value: notes/assumptions/2.md. -/
opaque latency (opcode : BitVec 8) (w : Width) (a b c idx : Word) (imm : BitVec 16) : Nat

end Sys2Proof.Config
end

