-- ==== Sys2Proof/Syntax.lean ====
section
/-!
DEFINITION. The 29 commands of the opcode map, one constructor per row (30_encoding.md R80), with the fields
that the command's operand class uses (R79). Every field is of the exact range its encoding admits.
-/

namespace Sys2Proof

/-- A command. `w` is the operation width (30_encoding.md R74), `rd` the destination, `rs1`, `rs2`, `rs3` the
sources (R75). -/
inductive Instr where
  -- register moves and immediates (43_data_movement.md)
  | mov (w : Width) (rd rs1 : Reg)
  | li (w : Width) (rd : Reg) (imm : BitVec 16)
  -- bit primitives (40_bit_primitives.md)
  | getbit (w : Width) (rd rs1 rs2 : Reg)
  | setbit (w : Width) (rd rs1 rs2 : Reg)
  | clrbit (w : Width) (rd rs1 rs2 : Reg)
  | flipbit (w : Width) (rd rs1 rs2 : Reg)
  | popcnt (w : Width) (rd rs1 : Reg)
  | clz (w : Width) (rd rs1 : Reg)
  | ctz (w : Width) (rd rs1 : Reg)
  | bitlen (w : Width) (rd rs1 : Reg)
  | lsb1 (w : Width) (rd rs1 : Reg)
  | msb1 (w : Width) (rd rs1 : Reg)
  | foldmsb (w : Width) (rd rs1 : Reg)
  | foldlsb (w : Width) (rd rs1 : Reg)
  | revbits (w : Width) (rd rs1 : Reg)
  | revbytes (w : Width) (rd rs1 : Reg)
  | gray (w : Width) (rd rs1 : Reg)
  | igray (w : Width) (rd rs1 : Reg)
  -- multiplier and divider (41_muldiv.md)
  | mul (w : Width) (rd rs1 rs2 : Reg)
  | mulh (w : Width) (rd rs1 rs2 : Reg)
  | mulhu (w : Width) (rd rs1 rs2 : Reg)
  | mulc (w : Width) (rd rs1 rs2 : Reg)
  | mulcu (w : Width) (rd rs1 rs2 : Reg)
  | div (w : Width) (rd rs1 rs2 : Reg)
  | divu (w : Width) (rd rs1 rs2 : Reg)
  | rem (w : Width) (rd rs1 rs2 : Reg)
  | remu (w : Width) (rd rs1 rs2 : Reg)
  -- modular commands (42_modular.md)
  | mulmod (w : Width) (rd rs1 rs2 rs3 : Reg)
  | powmod (w : Width) (rd rs1 rs2 rs3 : Reg)
deriving DecidableEq, Repr

end Sys2Proof
end

