-- ==== Sys2Proof/Machine/State.lean ====
section
/-!
DEFINITION. Everything the spec gives the Flux BPU to hold (10_state.md), as plain data, the reasons a step can
stop, and the state right after a hardware reset (10_state.md R39, 70_reset_and_hazards.md R241).
-/

namespace Sys2Proof.Machine

/-- An operand register: its 64 bits (10_state.md R20), and which of its halves have been written since the
hardware reset (10_state.md R23, 20_memory.md R56). -/
structure OperandReg where
  value : Word
  loWritten : Bool
  hiWritten : Bool
deriving DecidableEq, Repr

/-- The operand values latched at issue (30_encoding.md R77, 70_reset_and_hazards.md R250): `a`, `b`, `c` are w-bit
patterns zero-extended to 64 bits, `idx` is a whole 64-bit register (40_bit_primitives.md R100). A value that the
command does not use is 0. -/
structure Operands where
  a : Word
  b : Word
  c : Word
  idx : Word
deriving DecidableEq, Repr

/-- The in-flight command record (10_state.md R36). Its destination number is bits 13:10 of `word`, stored once:
notes/assumptions/6.md. `remaining` counts the unit clock cycles until the command ends. -/
structure InFlight where
  word : CmdWord
  operands : Operands
  remaining : Nat
deriving DecidableEq, Repr

/-- The causes of a command error and NONE (60_exceptions.md R211). Codes 5 to 15 are never produced, so they are
no values of this type. -/
inductive ErrorCode where
  | none
  | illegal
  | range
  | divZero
  | overflow
deriving DecidableEq, Repr

/-- The size of a host access in bytes (20_memory.md R56, R57). -/
inductive AccessSize where
  | b1
  | b2
  | b4
  | b8
deriving DecidableEq, Repr

/-- One host access to the register window: `HostRead` (20_memory.md R54) or `HostWrite` (R55), at a byte offset of
the 256-byte window (R51). The unit uses only the low bytes of `v` that the size covers. -/
inductive HostAccess where
  | read (off : BitVec 8) (size : AccessSize)
  | write (off : BitVec 8) (size : AccessSize) (v : Word)
deriving DecidableEq, Repr

/-- What the outside does in one unit clock cycle: nothing, one new host access, or the hardware reset asserted
(70_reset_and_hazards.md R240, R241). `keepWaiting` says whether the platform holds the waiting accesses over the
reset or gives them up: notes/assumptions/9.md. -/
inductive Input where
  | quiet
  | access (a : HostAccess)
  | reset (keepWaiting : Bool)
deriving DecidableEq, Repr

/-- The response to a performed access (20_memory.md R54 to R58): an error response SLVERR or OKAY, and the value
read (0 for an error and for a write). -/
structure HostResponse where
  slverr : Bool
  data : Word
deriving DecidableEq, Repr

/-- The state of the unit. `port`, `inputs` and `response` are the model's own view of the outside:
notes/assumptions/4.md and notes/assumptions/8.md. -/
structure State where
  /-- x0 to x15 (10_state.md R20). -/
  x : Vector OperandReg 16
  /-- The in-flight command record; STATUS.BUSY is 1 exactly while it exists (10_state.md R26, R36). -/
  inFlight : Option InFlight
  /-- STATUS.DONE (10_state.md R27). -/
  done : Bool
  /-- STATUS.ERR (10_state.md R28). -/
  err : Bool
  /-- STATUS.DROP (10_state.md R29). -/
  drop : Bool
  /-- STATUS.ERRCODE (10_state.md R30). -/
  errCode : ErrorCode
  /-- CTRL.IE_DONE (10_state.md R31). -/
  ieDone : Bool
  /-- CTRL.IE_ERR (10_state.md R31). -/
  ieErr : Bool
  /-- ERRCMD (10_state.md R32). -/
  errCmd : CmdWord
  /-- Host accesses offered and not yet performed, oldest first. The head is the one at the port, which a stall
  holds there (10_state.md R36); it holds back the others (70_reset_and_hazards.md R251). -/
  port : List HostAccess
  /-- What the outside does in the coming cycles; past the end it does nothing. -/
  inputs : List Input
  /-- The response given in the last cycle, if one was. -/
  response : Option HostResponse
deriving DecidableEq, Repr

/-- Why the machine stops. -/
inductive Fault where
  /-- Raised by `step` when the in-flight command is due to end and its word decodes to no command. No run
  reaches it: an illegal word never becomes an in-flight command (60_exceptions.md R216). Safe. -/
  | inFlightIllegal
deriving DecidableEq, Repr

/-- Why the model gives no meaning. -/
inductive Refusal where
  /-- Raised by an arm of `exec` that has no meaning yet. Safe. -/
  | notModelled (mnemonic : String)
deriving DecidableEq, Repr

/-- What a step of this machine answers. -/
abbrev Outcome := Host.Outcome State Fault Refusal

/-- The machine right after a hardware reset (10_state.md R39, 70_reset_and_hazards.md R241): the operand
registers unwritten, with the value that notes/assumptions/1.md names; STATUS, CTRL and ERRCMD 0; no in-flight
command; nothing offered at the port. -/
def State.reset : State where
  x := Vector.replicate 16 ⟨Config.powerOnOperand, false, false⟩
  inFlight := none
  done := false
  err := false
  drop := false
  errCode := .none
  ieDone := false
  ieErr := false
  errCmd := 0#32
  port := []
  inputs := []
  response := none

end Sys2Proof.Machine
end

