-- ==== Sys2Proof/Machine/Flags.lean ====
section
/-!
DEFINITION. The unit has no arithmetic flags (10_state.md R35); its only status is STATUS and CTRL. This file
computes the words of the control and status registers and the interrupt output from the state, and clears the
STATUS fields (10_state.md R25 to R34, R37).
-/

namespace Sys2Proof.Machine

/-- STATUS.BUSY: 1 exactly while the in-flight record exists (10_state.md R26, R36). -/
def busy (s : State) : Bool := s.inFlight.isSome

/-- The 4-bit error codes (60_exceptions.md R211). -/
def codeBits (e : ErrorCode) : BitVec 4 :=
  match e with
  | .none => 0#4
  | .illegal => 1#4
  | .range => 2#4
  | .divZero => 3#4
  | .overflow => 4#4

/-- The STATUS register as read: bits 31:12 and 7:4 are 0 (10_state.md R25). -/
def statusWord (s : State) : BitVec 32 :=
  0#20 ++ codeBits s.errCode ++ 0#4 ++ BitVec.ofBool s.drop ++ BitVec.ofBool s.err ++ BitVec.ofBool s.done
    ++ BitVec.ofBool (busy s)

/-- The CTRL register as read: SRST and bits 30:2 are 0 (10_state.md R31). -/
def ctrlWord (s : State) : BitVec 32 := 0#30 ++ BitVec.ofBool s.ieErr ++ BitVec.ofBool s.ieDone

/-- The interrupt output (10_state.md R37, 60_exceptions.md R220). -/
def irq (s : State) : Bool := (s.done && s.ieDone) || (s.err && s.ieErr)

/-- A host write to STATUS clears the fields whose bits are 1; ERRCODE is cleared with ERR. Every other bit of the
written value is ignored (10_state.md R25, R28, 60_exceptions.md R217). -/
def clearStatus (v : BitVec 32) (s : State) : State :=
  { s with
    done := s.done && !v.getLsbD 1
    err := s.err && !v.getLsbD 2
    errCode := if v.getLsbD 2 then .none else s.errCode
    drop := s.drop && !v.getLsbD 3 }

/-- A host write to CTRL sets the interrupt enables from bits 0 and 1 (10_state.md R31, 20_memory.md R55). -/
def setEnables (v : BitVec 32) (s : State) : State :=
  { s with ieDone := v.getLsbD 0, ieErr := v.getLsbD 1 }

end Sys2Proof.Machine
end

