-- ==== Sys2Proof/WellFormed.lean ====
section
/-!
DEFINITION. Which command words are well formed. A term of Instr holds only fields that its encoding admits at
every value (30_encoding.md R74 to R76), so no check on terms of Instr remains; what can be ill formed is a
command word, and the three checks of R81 stand here. They are written from the match and mask columns of the
opcode map (R80), not from the decoder, so that the two can be held against each other.
-/

namespace Sys2Proof

/-- The operand classes of 30_encoding.md R79. -/
inductive OperandClass where
  | u
  | b
  | t
  | i
deriving DecidableEq, Repr

/-- One row of the opcode map: a word selects the command when `word AND mask = match` (30_encoding.md R80). -/
structure OpcodeRow where
  mnemonic : String
  cls : OperandClass
  matchWord : CmdWord
  mask : CmdWord
deriving DecidableEq, Repr

/-- The rows of 43_data_movement.md in the opcode map (30_encoding.md R80). -/
def moveRows : List OpcodeRow :=
  [
    ⟨"MOV", .u, 0x00000001#32, 0xFFFC00FF#32⟩,
    ⟨"LI", .i, 0x00000002#32, 0x0000C0FF#32⟩
  ]

/-- The rows of 40_bit_primitives.md in the opcode map (30_encoding.md R80). -/
def bitRows : List OpcodeRow :=
  [
    ⟨"GETBIT", .b, 0x00000010#32, 0xFFC000FF#32⟩,
    ⟨"SETBIT", .b, 0x00000011#32, 0xFFC000FF#32⟩,
    ⟨"CLRBIT", .b, 0x00000012#32, 0xFFC000FF#32⟩,
    ⟨"FLIPBIT", .b, 0x00000013#32, 0xFFC000FF#32⟩,
    ⟨"POPCNT", .u, 0x00000014#32, 0xFFFC00FF#32⟩,
    ⟨"CLZ", .u, 0x00000015#32, 0xFFFC00FF#32⟩,
    ⟨"CTZ", .u, 0x00000016#32, 0xFFFC00FF#32⟩,
    ⟨"BITLEN", .u, 0x00000017#32, 0xFFFC00FF#32⟩,
    ⟨"LSB1", .u, 0x00000018#32, 0xFFFC00FF#32⟩,
    ⟨"MSB1", .u, 0x00000019#32, 0xFFFC00FF#32⟩,
    ⟨"FOLDMSB", .u, 0x0000001A#32, 0xFFFC00FF#32⟩,
    ⟨"FOLDLSB", .u, 0x0000001B#32, 0xFFFC00FF#32⟩,
    ⟨"REVBITS", .u, 0x0000001C#32, 0xFFFC00FF#32⟩,
    ⟨"REVBYTES", .u, 0x0000001D#32, 0xFFFC00FF#32⟩,
    ⟨"GRAY", .u, 0x0000001E#32, 0xFFFC00FF#32⟩,
    ⟨"IGRAY", .u, 0x0000001F#32, 0xFFFC00FF#32⟩
  ]

/-- The rows of 41_muldiv.md in the opcode map (30_encoding.md R80). -/
def muldivRows : List OpcodeRow :=
  [
    ⟨"MUL", .b, 0x00000020#32, 0xFFC000FF#32⟩,
    ⟨"MULH", .b, 0x00000021#32, 0xFFC000FF#32⟩,
    ⟨"MULHU", .b, 0x00000022#32, 0xFFC000FF#32⟩,
    ⟨"MULC", .b, 0x00000023#32, 0xFFC000FF#32⟩,
    ⟨"MULCU", .b, 0x00000024#32, 0xFFC000FF#32⟩,
    ⟨"DIV", .b, 0x00000025#32, 0xFFC000FF#32⟩,
    ⟨"DIVU", .b, 0x00000026#32, 0xFFC000FF#32⟩,
    ⟨"REM", .b, 0x00000027#32, 0xFFC000FF#32⟩,
    ⟨"REMU", .b, 0x00000028#32, 0xFFC000FF#32⟩
  ]

/-- The rows of 42_modular.md in the opcode map (30_encoding.md R80). -/
def modularRows : List OpcodeRow :=
  [
    ⟨"MULMOD", .t, 0x00000030#32, 0xFC0000FF#32⟩,
    ⟨"POWMOD", .t, 0x00000031#32, 0xFC0000FF#32⟩
  ]

/-- The opcode map of 30_encoding.md R80. -/
def opcodeMap : List OpcodeRow := moveRows ++ bitRows ++ muldivRows ++ modularRows

/-- `word` selects the command of `row` (30_encoding.md R80). -/
def OpcodeRow.selects (row : OpcodeRow) (word : CmdWord) : Bool := word &&& row.mask == row.matchWord

/-- The row that an opcode byte names, if the opcode is defined (30_encoding.md R73, R81 (1)). -/
def rowOfOpcode (opc : BitVec 8) : Option OpcodeRow :=
  opcodeMap.find? fun row => row.matchWord.setWidth 8 == opc

/-- R81 (1): the opcode stands in the opcode map. -/
def opcodeDefined (word : CmdWord) : Bool := (rowOfOpcode (word.setWidth 8)).isSome

/-- R81 (2): the reserved field of the command's format is 0: bits 31:26 for format R, 15:14 for format I. -/
def reservedZero (word : CmdWord) : Bool :=
  match rowOfOpcode (word.setWidth 8) with
  | some ⟨_, .i, _, _⟩ => word &&& 0x0000C000#32 == 0#32
  | some _ => word &&& 0xFC000000#32 == 0#32
  | none => true

/-- R81 (3): the register fields that the command's class does not use are 0 (R79). -/
def unusedZero (word : CmdWord) : Bool :=
  match rowOfOpcode (word.setWidth 8) with
  | some ⟨_, .u, _, _⟩ => word &&& 0x03FC0000#32 == 0#32
  | some ⟨_, .b, _, _⟩ => word &&& 0x03C00000#32 == 0#32
  | _ => true

/-- A command word is well formed when it is not illegal by 30_encoding.md R81. -/
def wellFormed (word : CmdWord) : Bool := opcodeDefined word && reservedZero word && unusedZero word

end Sys2Proof
end

