-- ==== Sys2Proof/Decode.lean ====
section
/-!
DEFINITION. The decoder of 30_encoding.md R83, total on any bytes and rejecting by name, and after it the encoder
(formats R71 and R72).
-/

namespace Sys2Proof

/-- Why the decoder rejects: the three causes of 30_encoding.md R81, and a string of bytes that is not one 32-bit
command word (R70). -/
inductive DecodeError where
  | undefinedOpcode
  | reservedBits
  | unusedField
  | notOneWord
deriving DecidableEq, Repr

/-- OPC, bits 7:0 (30_encoding.md R71, R72). -/
def opcField (word : CmdWord) : BitVec 8 := word.extractLsb' 0 8

/-- W, bits 9:8 (30_encoding.md R74). -/
def widthField (word : CmdWord) : BitVec 2 := word.extractLsb' 8 2

/-- RD, bits 13:10 (30_encoding.md R71, R72). -/
def rdField (word : CmdWord) : Reg := word.extractLsb' 10 4

/-- RS1, bits 17:14 (30_encoding.md R71). -/
def rs1Field (word : CmdWord) : Reg := word.extractLsb' 14 4

/-- RS2, bits 21:18 (30_encoding.md R71). -/
def rs2Field (word : CmdWord) : Reg := word.extractLsb' 18 4

/-- RS3, bits 25:22 (30_encoding.md R71). -/
def rs3Field (word : CmdWord) : Reg := word.extractLsb' 22 4

/-- RSV of format R, bits 31:26 (30_encoding.md R71). -/
def rsvRField (word : CmdWord) : BitVec 6 := word.extractLsb' 26 6

/-- RSV of format I, bits 15:14 (30_encoding.md R72). -/
def rsvIField (word : CmdWord) : BitVec 2 := word.extractLsb' 14 2

/-- IMM16, bits 31:16 (30_encoding.md R72). -/
def immField (word : CmdWord) : BitVec 16 := word.extractLsb' 16 16

/-- The width that W selects (30_encoding.md R74). -/
def widthOfCode (code : BitVec 2) : Width :=
  match code with
  | 0b00#2 => .w8
  | 0b01#2 => .w16
  | 0b10#2 => .w32
  | 0b11#2 => .w64

/-- The W field of a width (30_encoding.md R74). -/
def widthCode (w : Width) : BitVec 2 :=
  match w with
  | .w8 => 0b00#2
  | .w16 => 0b01#2
  | .w32 => 0b10#2
  | .w64 => 0b11#2

/-- A word of class U: RSV, RS2 and RS3 must be 0 (30_encoding.md R79, R83). -/
def decodeU (word : CmdWord) (mk : Width → Reg → Reg → Instr) : Except DecodeError Instr :=
  if rsvRField word ≠ 0 then .error .reservedBits
  else if rs2Field word ≠ 0 ∨ rs3Field word ≠ 0 then .error .unusedField
  else .ok (mk (widthOfCode (widthField word)) (rdField word) (rs1Field word))

/-- A word of class B: RSV and RS3 must be 0 (30_encoding.md R79, R83). -/
def decodeB (word : CmdWord) (mk : Width → Reg → Reg → Reg → Instr) : Except DecodeError Instr :=
  if rsvRField word ≠ 0 then .error .reservedBits
  else if rs3Field word ≠ 0 then .error .unusedField
  else .ok (mk (widthOfCode (widthField word)) (rdField word) (rs1Field word) (rs2Field word))

/-- A word of class T: RSV must be 0 (30_encoding.md R79, R83). -/
def decodeT (word : CmdWord) (mk : Width → Reg → Reg → Reg → Reg → Instr) : Except DecodeError Instr :=
  if rsvRField word ≠ 0 then .error .reservedBits
  else .ok (mk (widthOfCode (widthField word)) (rdField word) (rs1Field word) (rs2Field word) (rs3Field word))

/-- A word of class I: bits 15:14 must be 0 (30_encoding.md R79, R83). -/
def decodeI (word : CmdWord) (mk : Width → Reg → BitVec 16 → Instr) : Except DecodeError Instr :=
  if rsvIField word ≠ 0 then .error .reservedBits
  else .ok (mk (widthOfCode (widthField word)) (rdField word) (immField word))

/-- `Decode(word)` of 30_encoding.md R83: the opcode byte alone selects the command (R73). -/
def decode (word : CmdWord) : Except DecodeError Instr :=
  match opcField word with
  | 0x01#8 => decodeU word .mov
  | 0x02#8 => decodeI word .li
  | 0x10#8 => decodeB word .getbit
  | 0x11#8 => decodeB word .setbit
  | 0x12#8 => decodeB word .clrbit
  | 0x13#8 => decodeB word .flipbit
  | 0x14#8 => decodeU word .popcnt
  | 0x15#8 => decodeU word .clz
  | 0x16#8 => decodeU word .ctz
  | 0x17#8 => decodeU word .bitlen
  | 0x18#8 => decodeU word .lsb1
  | 0x19#8 => decodeU word .msb1
  | 0x1A#8 => decodeU word .foldmsb
  | 0x1B#8 => decodeU word .foldlsb
  | 0x1C#8 => decodeU word .revbits
  | 0x1D#8 => decodeU word .revbytes
  | 0x1E#8 => decodeU word .gray
  | 0x1F#8 => decodeU word .igray
  | 0x20#8 => decodeB word .mul
  | 0x21#8 => decodeB word .mulh
  | 0x22#8 => decodeB word .mulhu
  | 0x23#8 => decodeB word .mulc
  | 0x24#8 => decodeB word .mulcu
  | 0x25#8 => decodeB word .div
  | 0x26#8 => decodeB word .divu
  | 0x27#8 => decodeB word .rem
  | 0x28#8 => decodeB word .remu
  | 0x30#8 => decodeT word .mulmod
  | 0x31#8 => decodeT word .powmod
  | _ => .error .undefinedOpcode

/-- The command word whose four bytes stand at rising offsets, the lowest byte first (20_memory.md R53). -/
def wordOfBytes (b0 b1 b2 b3 : Byte) : CmdWord := b3 ++ b2 ++ b1 ++ b0

/-- The bytes of a command word in the window's order, offset 0 first (20_memory.md R53). -/
def bytesOfWord (word : CmdWord) : List Byte :=
  [word.extractLsb' 0 8, word.extractLsb' 8 8, word.extractLsb' 16 8, word.extractLsb' 24 8]

/-- The decoder on any bytes: a command is exactly one 32-bit word (30_encoding.md R70). -/
def decodeBytes (bytes : List Byte) : Except DecodeError Instr :=
  match bytes with
  | [b0, b1, b2, b3] => decode (wordOfBytes b0 b1 b2 b3)
  | _ => .error .notOneWord

/-- Format R put together from its fields (30_encoding.md R71). -/
def packR (rs3 rs2 rs1 rd : Reg) (w : Width) (opc : BitVec 8) : CmdWord :=
  0#6 ++ rs3 ++ rs2 ++ rs1 ++ rd ++ widthCode w ++ opc

/-- Format I put together from its fields (30_encoding.md R72). -/
def packI (imm : BitVec 16) (rd : Reg) (w : Width) (opc : BitVec 8) : CmdWord :=
  imm ++ 0#2 ++ rd ++ widthCode w ++ opc

/-- The one legal command word of a command (30_encoding.md R71, R72, R80). -/
def encode (i : Instr) : CmdWord :=
  match i with
  | .mov w rd rs1 => packR 0 0 rs1 rd w 0x01#8
  | .li w rd imm => packI imm rd w 0x02#8
  | .getbit w rd rs1 rs2 => packR 0 rs2 rs1 rd w 0x10#8
  | .setbit w rd rs1 rs2 => packR 0 rs2 rs1 rd w 0x11#8
  | .clrbit w rd rs1 rs2 => packR 0 rs2 rs1 rd w 0x12#8
  | .flipbit w rd rs1 rs2 => packR 0 rs2 rs1 rd w 0x13#8
  | .popcnt w rd rs1 => packR 0 0 rs1 rd w 0x14#8
  | .clz w rd rs1 => packR 0 0 rs1 rd w 0x15#8
  | .ctz w rd rs1 => packR 0 0 rs1 rd w 0x16#8
  | .bitlen w rd rs1 => packR 0 0 rs1 rd w 0x17#8
  | .lsb1 w rd rs1 => packR 0 0 rs1 rd w 0x18#8
  | .msb1 w rd rs1 => packR 0 0 rs1 rd w 0x19#8
  | .foldmsb w rd rs1 => packR 0 0 rs1 rd w 0x1A#8
  | .foldlsb w rd rs1 => packR 0 0 rs1 rd w 0x1B#8
  | .revbits w rd rs1 => packR 0 0 rs1 rd w 0x1C#8
  | .revbytes w rd rs1 => packR 0 0 rs1 rd w 0x1D#8
  | .gray w rd rs1 => packR 0 0 rs1 rd w 0x1E#8
  | .igray w rd rs1 => packR 0 0 rs1 rd w 0x1F#8
  | .mul w rd rs1 rs2 => packR 0 rs2 rs1 rd w 0x20#8
  | .mulh w rd rs1 rs2 => packR 0 rs2 rs1 rd w 0x21#8
  | .mulhu w rd rs1 rs2 => packR 0 rs2 rs1 rd w 0x22#8
  | .mulc w rd rs1 rs2 => packR 0 rs2 rs1 rd w 0x23#8
  | .mulcu w rd rs1 rs2 => packR 0 rs2 rs1 rd w 0x24#8
  | .div w rd rs1 rs2 => packR 0 rs2 rs1 rd w 0x25#8
  | .divu w rd rs1 rs2 => packR 0 rs2 rs1 rd w 0x26#8
  | .rem w rd rs1 rs2 => packR 0 rs2 rs1 rd w 0x27#8
  | .remu w rd rs1 rs2 => packR 0 rs2 rs1 rd w 0x28#8
  | .mulmod w rd rs1 rs2 rs3 => packR rs3 rs2 rs1 rd w 0x30#8
  | .powmod w rd rs1 rs2 rs3 => packR rs3 rs2 rs1 rd w 0x31#8

/-- The mnemonic of a command in the opcode map (30_encoding.md R80). -/
def mnemonic (i : Instr) : String :=
  match i with
  | .mov _ _ _ => "MOV"
  | .li _ _ _ => "LI"
  | .getbit _ _ _ _ => "GETBIT"
  | .setbit _ _ _ _ => "SETBIT"
  | .clrbit _ _ _ _ => "CLRBIT"
  | .flipbit _ _ _ _ => "FLIPBIT"
  | .popcnt _ _ _ => "POPCNT"
  | .clz _ _ _ => "CLZ"
  | .ctz _ _ _ => "CTZ"
  | .bitlen _ _ _ => "BITLEN"
  | .lsb1 _ _ _ => "LSB1"
  | .msb1 _ _ _ => "MSB1"
  | .foldmsb _ _ _ => "FOLDMSB"
  | .foldlsb _ _ _ => "FOLDLSB"
  | .revbits _ _ _ => "REVBITS"
  | .revbytes _ _ _ => "REVBYTES"
  | .gray _ _ _ => "GRAY"
  | .igray _ _ _ => "IGRAY"
  | .mul _ _ _ _ => "MUL"
  | .mulh _ _ _ _ => "MULH"
  | .mulhu _ _ _ _ => "MULHU"
  | .mulc _ _ _ _ => "MULC"
  | .mulcu _ _ _ _ => "MULCU"
  | .div _ _ _ _ => "DIV"
  | .divu _ _ _ _ => "DIVU"
  | .rem _ _ _ _ => "REM"
  | .remu _ _ _ _ => "REMU"
  | .mulmod _ _ _ _ _ => "MULMOD"
  | .powmod _ _ _ _ _ => "POWMOD"

/-- The instruction that the decoder reads from the table's word `w` of `nbits` bits, the bits above being 0, with
the word laid out as the window stores it (20_memory.md R53). -/
def decodeTableWord (nbits w : Nat) : Option Instr :=
  match decodeBytes (bytesOfWord (BitVec.ofNat 32 (w % 2 ^ nbits))) with
  | .ok i => some i
  | .error _ => none

/-- Which fields of the command word a command uses (30_encoding.md R79); `index` marks a command whose RS2 names
a bit index (40_bit_primitives.md R100), and `imm` is the immediate of class I (R76), 0 in every other class. -/
structure Fields where
  w : Width
  rd : Reg
  rs1 : Option Reg
  rs2 : Option Reg
  rs3 : Option Reg
  index : Bool
  imm : BitVec 16
deriving DecidableEq, Repr

/-- Class U (30_encoding.md R79). -/
def fieldsU (w : Width) (rd rs1 : Reg) : Fields := ⟨w, rd, some rs1, none, none, false, 0⟩

/-- Class B (30_encoding.md R79). -/
def fieldsB (w : Width) (rd rs1 rs2 : Reg) : Fields := ⟨w, rd, some rs1, some rs2, none, false, 0⟩

/-- Class B with RS2 a bit index (30_encoding.md R77, R79). -/
def fieldsIndex (w : Width) (rd rs1 rs2 : Reg) : Fields := ⟨w, rd, some rs1, some rs2, none, true, 0⟩

/-- Class T (30_encoding.md R79). -/
def fieldsT (w : Width) (rd rs1 rs2 rs3 : Reg) : Fields := ⟨w, rd, some rs1, some rs2, some rs3, false, 0⟩

/-- Class I: an immediate and no source register (30_encoding.md R79, 43_data_movement.md R201). -/
def fieldsI (w : Width) (rd : Reg) (imm : BitVec 16) : Fields := ⟨w, rd, none, none, none, false, imm⟩

/-- The fields a command uses (30_encoding.md R77, R79). -/
def fieldsOf (i : Instr) : Fields :=
  match i with
  | .mov w rd rs1 => fieldsU w rd rs1
  | .li w rd imm => fieldsI w rd imm
  | .getbit w rd rs1 rs2 => fieldsIndex w rd rs1 rs2
  | .setbit w rd rs1 rs2 => fieldsIndex w rd rs1 rs2
  | .clrbit w rd rs1 rs2 => fieldsIndex w rd rs1 rs2
  | .flipbit w rd rs1 rs2 => fieldsIndex w rd rs1 rs2
  | .popcnt w rd rs1 => fieldsU w rd rs1
  | .clz w rd rs1 => fieldsU w rd rs1
  | .ctz w rd rs1 => fieldsU w rd rs1
  | .bitlen w rd rs1 => fieldsU w rd rs1
  | .lsb1 w rd rs1 => fieldsU w rd rs1
  | .msb1 w rd rs1 => fieldsU w rd rs1
  | .foldmsb w rd rs1 => fieldsU w rd rs1
  | .foldlsb w rd rs1 => fieldsU w rd rs1
  | .revbits w rd rs1 => fieldsU w rd rs1
  | .revbytes w rd rs1 => fieldsU w rd rs1
  | .gray w rd rs1 => fieldsU w rd rs1
  | .igray w rd rs1 => fieldsU w rd rs1
  | .mul w rd rs1 rs2 => fieldsB w rd rs1 rs2
  | .mulh w rd rs1 rs2 => fieldsB w rd rs1 rs2
  | .mulhu w rd rs1 rs2 => fieldsB w rd rs1 rs2
  | .mulc w rd rs1 rs2 => fieldsB w rd rs1 rs2
  | .mulcu w rd rs1 rs2 => fieldsB w rd rs1 rs2
  | .div w rd rs1 rs2 => fieldsB w rd rs1 rs2
  | .divu w rd rs1 rs2 => fieldsB w rd rs1 rs2
  | .rem w rd rs1 rs2 => fieldsB w rd rs1 rs2
  | .remu w rd rs1 rs2 => fieldsB w rd rs1 rs2
  | .mulmod w rd rs1 rs2 rs3 => fieldsT w rd rs1 rs2 rs3
  | .powmod w rd rs1 rs2 rs3 => fieldsT w rd rs1 rs2 rs3

end Sys2Proof
end

