-- ==== Sys2Proof/Machine/Operands.lean ====
section
/-!
DEFINITION. Reading and writing operand registers and fetching the operands of a command (10_state.md R20 to R23,
20_memory.md R53, R56, 30_encoding.md R77, R78).
-/

namespace Sys2Proof.Machine

/-- The number of bits of an operation width (30_encoding.md R74). -/
def widthBits (w : Width) : Nat :=
  match w with
  | .w8 => 8
  | .w16 => 16
  | .w32 => 32
  | .w64 => 64

/-- The register `x[r]` with its written state (10_state.md R20, R21). -/
def operandReg (s : State) (r : Reg) : OperandReg := s.x[r.toNat]'r.isLt

/-- `x[r]`: read an operand register (00_scope.md R9). A register that nothing has written yet reads as the value
that notes/assumptions/1.md names. -/
def readReg (s : State) (r : Reg) : Word := (operandReg s r).value

/-- A register is written when both of its halves have been written, or a command has written it (20_memory.md R56). -/
def isWritten (s : State) (r : Reg) : Bool := (operandReg s r).loWritten && (operandReg s r).hiWritten

/-- Put a register back (10_state.md R20). -/
def setOperandReg (s : State) (r : Reg) (v : OperandReg) : State := { s with x := s.x.set r.toNat v r.isLt }

/-- `x[r] <- v`: write all 64 bits, which makes the register written (00_scope.md R9, 20_memory.md R56). -/
def writeReg (s : State) (r : Reg) (v : Word) : State := setOperandReg s r ⟨v, true, true⟩

/-- Write `x[r][31:0]`, leaving the high half (20_memory.md R53, R56). -/
def writeRegLow (s : State) (r : Reg) (v : BitVec 32) : State :=
  let old := operandReg s r
  setOperandReg s r ⟨old.value.extractLsb' 32 32 ++ v, true, old.hiWritten⟩

/-- Write `x[r][63:32]`, leaving the low half (20_memory.md R53, R56). -/
def writeRegHigh (s : State) (r : Reg) (v : BitVec 32) : State :=
  let old := operandReg s r
  setOperandReg s r ⟨v ++ old.value.extractLsb' 0 32, old.loWritten, true⟩

/-- `zext_64(v[w-1:0])`: the low `w` bits of a register (30_encoding.md R77, 10_state.md R22). -/
def lowBits (w : Width) (v : Word) : Word := (v.setWidth (widthBits w)).setWidth 64

/-- The operand that a source field names, 0 where the command does not use the field (30_encoding.md R77, R79). -/
def fetchLow (s : State) (w : Width) (r : Option Reg) : Word :=
  match r with
  | some r => lowBits w (readReg s r)
  | none => 0

/-- Operand fetch at issue (30_encoding.md R77): RS2 is the operand `b`, or the whole 64-bit bit index `idx` of
GETBIT, SETBIT, CLRBIT and FLIPBIT (40_bit_primitives.md R100). -/
def latch (i : Instr) (s : State) : Operands :=
  let f := fieldsOf i
  { a := fetchLow s f.w f.rs1
    b := if f.index then 0 else fetchLow s f.w f.rs2
    c := fetchLow s f.w f.rs3
    idx := if f.index then (match f.rs2 with | some r => readReg s r | none => 0) else 0 }

/-- The operand values that command `i` is evaluated on: those latched in the in-flight record
(70_reset_and_hazards.md R250); in a state with no command in flight, those latched now, which is a command executed
whole at its CMD write (R255; notes/assumptions/5.md). -/
def operandsFor (i : Instr) (s : State) : Operands :=
  match s.inFlight with
  | some r => r.operands
  | none => latch i s

/-- The operands at the operation width `n` (30_encoding.md R77). -/
structure Args (n : Nat) where
  a : BitVec n
  b : BitVec n
  c : BitVec n
  idx : Word
deriving DecidableEq, Repr

/-- The latched operands cut to the operation width (30_encoding.md R77). -/
def argsOf (n : Nat) (o : Operands) : Args n := ⟨o.a.setWidth n, o.b.setWidth n, o.c.setWidth n, o.idx⟩

end Sys2Proof.Machine
end

