-- ==== Sys2Proof/Machine/Ops.lean ====
section
/-!
DEFINITION. The shared operations: how a command ends, raising an error and leaving the error state, the two
resets, issuing a command, and the host accesses to the register window (20_memory.md, 60_exceptions.md,
70_reset_and_hazards.md).
-/

namespace Sys2Proof.Machine

/-! ## How a command ends -/

/-- The end of a command without error: the destination is written, DONE becomes 1 and BUSY 0
(70_reset_and_hazards.md R250, 10_state.md R27, 30_encoding.md R78). -/
def complete (rd : Reg) (v : Word) (s : State) : State :=
  { writeReg s rd v with inFlight := none, done := true }

/-- TAKING AN ERROR, `raise Error(code)` for the command word `word` (60_exceptions.md R215): BUSY 0, ERR 1, ERRCODE
and ERRCMD recorded; no operand register, DONE, DROP or CTRL changes. -/
def raiseError (code : ErrorCode) (word : CmdWord) (s : State) : State :=
  { s with inFlight := none, err := true, errCode := code, errCmd := word }

/-- LEAVING THE ERROR STATE: the host write of STATUS with bit 2 alone set (60_exceptions.md R217). -/
def leaveError (s : State) : State := clearStatus 0x4#32 s

/-- The rule of a command: from its operands at width `n`, a result or an error (70_reset_and_hazards.md R250). -/
abbrev Rule := (n : Nat) → Args n → Except ErrorCode (BitVec n)

/-- What the rule of command `i` gives on the latched operands, the result zero-extended (30_encoding.md R78). -/
def evaluate (i : Instr) (rule : Rule) (o : Operands) : Except ErrorCode Word :=
  match rule (widthBits (fieldsOf i).w) (argsOf (widthBits (fieldsOf i).w) o) with
  | .ok res => .ok (res.setWidth 64)
  | .error code => .error code

/-- The end of command `i`: evaluate its rule on the latched operands, then write the destination or raise the error
(70_reset_and_hazards.md R250). The word that ERRCMD gets is the command's one legal word: notes/assumptions/7.md. -/
def runCommand (i : Instr) (rule : Rule) (s : State) : Outcome :=
  match evaluate i rule (operandsFor i s) with
  | .ok v => .next (complete (fieldsOf i).rd v s)
  | .error code => .next (raiseError code (encode i) s)

/-! ## Resets -/

/-- `SoftReset()` (70_reset_and_hazards.md R243): the in-flight command is abandoned, STATUS, CTRL and ERRCMD become
0, the operand registers and their written state stay. -/
def softReset (s : State) : State :=
  { s with
    inFlight := none
    done := false
    err := false
    drop := false
    errCode := .none
    ieDone := false
    ieErr := false
    errCmd := 0#32 }

/-- The hardware reset (70_reset_and_hazards.md R241): every piece of the unit's state as in `State.reset`. The
waiting accesses are the host's: the platform holds them over the reset or gives them up (notes/assumptions/9.md). -/
def hardwareReset (keepWaiting : Bool) (s : State) : State :=
  { State.reset with
    port := if keepWaiting then s.port else []
    inputs := s.inputs }

/-! ## Issue -/

/-- LAT: the number of cycles from issue to the end, a positive integer that may depend on the opcode, the width and
the operand values (00_scope.md R6, 70_reset_and_hazards.md R253). R253 does not say whether LI's immediate, which
43_data_movement.md R201 lists among its operands, is an operand value: DESIGN CHOICE, it is counted as one, so that
two LI of one width may differ in latency (notes/assumptions/2.md). -/
def latencyOf (i : Instr) (o : Operands) : Nat :=
  Config.latency (opcField (encode i)) (fieldsOf i).w o.a o.b o.c o.idx (fieldsOf i).imm + 1

/-- Issue of command `i`: its operands are latched and the in-flight record made, so BUSY becomes 1
(70_reset_and_hazards.md R250). -/
def issue (i : Instr) (word : CmdWord) (s : State) : State :=
  { s with inFlight := some { word := word, operands := latch i s, remaining := latencyOf i (latch i s) } }

/-- A command word discarded because ERR = 1 (10_state.md R29). -/
def dropWord (s : State) : State := { s with drop := true }

/-- `IssueOrDrop(word)` (70_reset_and_hazards.md R250): dropped while ERR = 1; ILLEGAL recorded at once
(60_exceptions.md R216); otherwise issued. -/
def issueOrDrop (word : CmdWord) (s : State) : State :=
  if s.err then dropWord s
  else
    match decode word with
    | .ok i => issue i word s
    | .error _ => raiseError .illegal word s

/-! ## The register window -/

/-- The accepted accesses: 8 bytes at `8·i` below 0x80, 4 bytes at the multiples of 4 up to 0x90; nothing else
(20_memory.md R56 to R58). -/
def accepted (off : BitVec 8) (size : AccessSize) : Bool :=
  match size with
  | .b1 => false
  | .b2 => false
  | .b4 => off.toNat % 4 == 0 && decide (off.toNat ≤ 0x90)
  | .b8 => off.toNat % 8 == 0 && decide (off.toNat < 0x80)

/-- The operand register at a window offset below 0x80: `off div 8` (20_memory.md R52, R54). -/
def regAt (off : BitVec 8) : Reg := BitVec.ofNat 4 (off.toNat / 8)

/-- An access of 4 bytes at `4 + 8·i` touches the high half (20_memory.md R52, R53). -/
def isHighHalf (off : BitVec 8) : Bool := off.toNat % 8 == 4

/-- The bytes of an operand register that an accepted read returns, little-endian (20_memory.md R53, R54). -/
def readOperandWindow (s : State) (off : BitVec 8) (size : AccessSize) : Word :=
  let v := readReg s (regAt off)
  match size with
  | .b8 => v
  | _ => if isHighHalf off then (v.extractLsb' 32 32).setWidth 64 else (v.extractLsb' 0 32).setWidth 64

/-- The value of an accepted read (20_memory.md R54). -/
def readWindow (s : State) (off : BitVec 8) (size : AccessSize) : Word :=
  if off.toNat < 0x80 then readOperandWindow s off size
  else
    match off with
    | 0x84#8 => (statusWord s).setWidth 64
    | 0x88#8 => (ctrlWord s).setWidth 64
    | 0x8C#8 => s.errCmd.setWidth 64
    | 0x90#8 => Config.idValue.setWidth 64
    | _ => 0

/-- An accepted write to an operand register: it replaces the selected bytes and leaves the others (20_memory.md
R53, R55, R56). -/
def writeOperandWindow (s : State) (off : BitVec 8) (size : AccessSize) (v : Word) : State :=
  match size with
  | .b8 => writeReg s (regAt off) v
  | _ => if isHighHalf off then writeRegHigh s (regAt off) (v.setWidth 32) else writeRegLow s (regAt off) (v.setWidth 32)

/-- A write to CTRL: the enables, or a soft reset when bit 31 is 1, after which the write's own bits 0 and 1 are not
kept (20_memory.md R55, 70_reset_and_hazards.md R243). -/
def writeCtrl (v : BitVec 32) (s : State) : State :=
  if v.getLsbD 31 then softReset s else setEnables v s

/-- The effect of an accepted write (20_memory.md R55); ERRCMD and ID ignore it (10_state.md R32, R34). -/
def writeWindow (s : State) (off : BitVec 8) (size : AccessSize) (v : Word) : State :=
  if off.toNat < 0x80 then writeOperandWindow s off size v
  else
    match off with
    | 0x80#8 => issueOrDrop (v.setWidth 32) s
    | 0x84#8 => clearStatus (v.setWidth 32) s
    | 0x88#8 => writeCtrl (v.setWidth 32) s
    | _ => s

/-- While BUSY = 1 the port holds the accepted accesses to operand registers and the accepted writes to CMD; every
other access is performed (70_reset_and_hazards.md R251, 20_memory.md R54, R55; notes/assumptions/13.md). -/
def held (s : State) (a : HostAccess) : Bool :=
  busy s &&
    match a with
    | .read off size => accepted off size && decide (off.toNat < 0x80)
    | .write off size _ => accepted off size && decide (off.toNat ≤ 0x80)

/-- `HostRead` and `HostWrite`, once not stalled (20_memory.md R54, R55): an access that is not accepted gets SLVERR
and changes nothing. -/
def perform (a : HostAccess) (s : State) : State :=
  match a with
  | .read off size =>
    if accepted off size then { s with response := some ⟨false, readWindow s off size⟩ }
    else { s with response := some ⟨true, 0⟩ }
  | .write off size v =>
    if accepted off size then { writeWindow s off size v with response := some ⟨false, 0⟩ }
    else { s with response := some ⟨true, 0⟩ }

/-- The host port for one cycle: the oldest waiting access is performed unless it is held; a held access stays and
holds back the later ones (20_memory.md R60, R63, 70_reset_and_hazards.md R251). -/
def servePort (s : State) : State :=
  match s.port with
  | [] => { s with response := none }
  | a :: rest => if held s a then { s with response := none } else perform a { s with port := rest }

/-- What the outside does in this cycle, and the port's answer (notes/assumptions/3.md, 4.md). While the hardware
reset is asserted no access is accepted (70_reset_and_hazards.md R241). -/
def hostPhase (s : State) : State :=
  match s.inputs with
  | [] => servePort s
  | .quiet :: rest => servePort { s with inputs := rest }
  | .access a :: rest => servePort { s with inputs := rest, port := s.port ++ [a] }
  | .reset keep :: rest => hardwareReset keep { s with inputs := rest }

/-! ## The command engine -/

/-- What the engine does in a cycle: nothing more than reach the state `t`, end the command `i`, or find that the
in-flight word is no command. -/
inductive EngineEvent where
  | wait (t : State)
  | ends (i : Instr)
  | undecodable

/-- The engine's action in the cycle that began in `before` and whose host access led to `after`: a command in flight
since before the cycle, and not abandoned in it, counts down, and ends when its latency is over
(70_reset_and_hazards.md R243, R250, 60_exceptions.md R219; notes/assumptions/3.md). -/
def engineEvent (before after : State) : EngineEvent :=
  if busy before then
    match after.inFlight with
    | none => .wait after
    | some r =>
      if r.remaining ≤ 1 then
        match decode r.word with
        | .ok i => .ends i
        | .error _ => .undecodable
      else .wait { after with inFlight := some { r with remaining := r.remaining - 1 } }
  else .wait after

/-- Place a command word where the very next step runs it, with nothing from the outside in that step: a command is
put in flight with its operands latched and its last cycle due; a word that is no command is offered as a CMD write
(notes/assumptions/4.md). -/
def placeCommand (word : CmdWord) (s : State) : State :=
  match decode word with
  | .ok i =>
    { s with inFlight := some { word := word, operands := latch i s, remaining := 1 }, port := [], inputs := [] }
  | .error _ => { s with inFlight := none, port := [.write 0x80#8 .b4 (word.setWidth 64)], inputs := [] }

end Sys2Proof.Machine
end

