-- ==== Sys2Proof/Machine/BitPrimitives.lean ====
section
/-!
DEFINITION. The bit primitives (40_bit_primitives.md).
The four single-bit commands raise RANGE when the whole 64-bit index is not below the width (R100).
-/

namespace Sys2Proof.Machine

/-- The rule of GETBIT: bit `idx` of the operand, RANGE when `idx >= w` (40_bit_primitives.md R101). -/
def ruleGetbit : Rule := fun n p =>
  if uint p.idx ≥ n then .error .range else .ok (patNat n (p.a.getLsbD (uint p.idx)).toNat)

/-- GETBIT (40_bit_primitives.md R101). -/
def execGetbit (w : Width) (rd rs1 rs2 : Reg) (s : State) : Outcome :=
  runCommand (.getbit w rd rs1 rs2) ruleGetbit s

/-- The rule of SETBIT: the operand with bit `idx` 1, RANGE when `idx >= w` (40_bit_primitives.md R102). -/
def ruleSetbit : Rule := fun n p =>
  if uint p.idx ≥ n then .error .range else .ok (p.a ||| 1#n <<< uint p.idx)

/-- SETBIT (40_bit_primitives.md R102). -/
def execSetbit (w : Width) (rd rs1 rs2 : Reg) (s : State) : Outcome :=
  runCommand (.setbit w rd rs1 rs2) ruleSetbit s

/-- The rule of CLRBIT: the operand with bit `idx` 0, RANGE when `idx >= w` (40_bit_primitives.md R103). -/
def ruleClrbit : Rule := fun n p =>
  if uint p.idx ≥ n then .error .range else .ok (p.a &&& ~~~(1#n <<< uint p.idx))

/-- CLRBIT (40_bit_primitives.md R103). -/
def execClrbit (w : Width) (rd rs1 rs2 : Reg) (s : State) : Outcome :=
  runCommand (.clrbit w rd rs1 rs2) ruleClrbit s

/-- The rule of FLIPBIT: the operand with bit `idx` inverted, RANGE when `idx >= w` (40_bit_primitives.md R104). -/
def ruleFlipbit : Rule := fun n p =>
  if uint p.idx ≥ n then .error .range else .ok (p.a ^^^ 1#n <<< uint p.idx)

/-- FLIPBIT (40_bit_primitives.md R104). -/
def execFlipbit (w : Width) (rd rs1 rs2 : Reg) (s : State) : Outcome :=
  runCommand (.flipbit w rd rs1 rs2) ruleFlipbit s

/-- The rule of POPCNT: the number of 1-bits (40_bit_primitives.md R110). -/
def rulePopcnt : Rule := fun n p => .ok (patNat n (popCount p.a))

/-- POPCNT (40_bit_primitives.md R110). -/
def execPopcnt (w : Width) (rd rs1 : Reg) (s : State) : Outcome :=
  runCommand (.popcnt w rd rs1) rulePopcnt s

/-- The rule of CLZ: the leading zero count, `w` for 0 (40_bit_primitives.md R111). -/
def ruleClz : Rule := fun n p => .ok (patNat n (leadingZeros p.a))

/-- CLZ (40_bit_primitives.md R111). -/
def execClz (w : Width) (rd rs1 : Reg) (s : State) : Outcome :=
  runCommand (.clz w rd rs1) ruleClz s

/-- The rule of CTZ: the trailing zero count, `w` for 0 (40_bit_primitives.md R112). -/
def ruleCtz : Rule := fun n p => .ok (patNat n (trailingZeros p.a))

/-- CTZ (40_bit_primitives.md R112). -/
def execCtz (w : Width) (rd rs1 : Reg) (s : State) : Outcome :=
  runCommand (.ctz w rd rs1) ruleCtz s

/-- The rule of BITLEN: the bit length, 0 for 0 (40_bit_primitives.md R113). -/
def ruleBitlen : Rule := fun n p => .ok (patNat n (bitLength p.a))

/-- BITLEN (40_bit_primitives.md R113). -/
def execBitlen (w : Width) (rd rs1 : Reg) (s : State) : Outcome :=
  runCommand (.bitlen w rd rs1) ruleBitlen s

/-- The rule of LSB1: the least significant 1-bit alone (40_bit_primitives.md R114). -/
def ruleLsb1 : Rule := fun _ p => .ok (isolateLow p.a)

/-- LSB1 (40_bit_primitives.md R114). -/
def execLsb1 (w : Width) (rd rs1 : Reg) (s : State) : Outcome :=
  runCommand (.lsb1 w rd rs1) ruleLsb1 s

/-- The rule of MSB1: the most significant 1-bit alone (40_bit_primitives.md R115). -/
def ruleMsb1 : Rule := fun _ p => .ok (isolateHigh p.a)

/-- MSB1 (40_bit_primitives.md R115). -/
def execMsb1 (w : Width) (rd rs1 : Reg) (s : State) : Outcome :=
  runCommand (.msb1 w rd rs1) ruleMsb1 s

/-- The rule of FOLDMSB: the most significant 1-bit propagated downward (40_bit_primitives.md R116). -/
def ruleFoldmsb : Rule := fun _ p => .ok (foldDown p.a)

/-- FOLDMSB (40_bit_primitives.md R116). -/
def execFoldmsb (w : Width) (rd rs1 : Reg) (s : State) : Outcome :=
  runCommand (.foldmsb w rd rs1) ruleFoldmsb s

/-- The rule of FOLDLSB: the least significant 1-bit propagated upward (40_bit_primitives.md R117). -/
def ruleFoldlsb : Rule := fun _ p => .ok (foldUp p.a)

/-- FOLDLSB (40_bit_primitives.md R117). -/
def execFoldlsb (w : Width) (rd rs1 : Reg) (s : State) : Outcome :=
  runCommand (.foldlsb w rd rs1) ruleFoldlsb s

/-- The rule of REVBITS: the bits mirrored over the width (40_bit_primitives.md R120). -/
def ruleRevbits : Rule := fun _ p => .ok (reverseBits p.a)

/-- REVBITS (40_bit_primitives.md R120). -/
def execRevbits (w : Width) (rd rs1 : Reg) (s : State) : Outcome :=
  runCommand (.revbits w rd rs1) ruleRevbits s

/-- The rule of REVBYTES: the bytes mirrored over the width (40_bit_primitives.md R121). -/
def ruleRevbytes : Rule := fun _ p => .ok (reverseBytes p.a)

/-- REVBYTES (40_bit_primitives.md R121). -/
def execRevbytes (w : Width) (rd rs1 : Reg) (s : State) : Outcome :=
  runCommand (.revbytes w rd rs1) ruleRevbytes s

/-- The rule of GRAY: binary to Gray code (40_bit_primitives.md R122). -/
def ruleGray : Rule := fun _ p => .ok (toGray p.a)

/-- GRAY (40_bit_primitives.md R122). -/
def execGray (w : Width) (rd rs1 : Reg) (s : State) : Outcome :=
  runCommand (.gray w rd rs1) ruleGray s

/-- The rule of IGRAY: Gray code to binary (40_bit_primitives.md R123). -/
def ruleIgray : Rule := fun _ p => .ok (fromGray p.a)

/-- IGRAY (40_bit_primitives.md R123). -/
def execIgray (w : Width) (rd rs1 : Reg) (s : State) : Outcome :=
  runCommand (.igray w rd rs1) ruleIgray s

end Sys2Proof.Machine
end

