-- ==== Sys2Proof/Machine/DataMovement.lean ====
section
/-!
DEFINITION. Register moves and immediates (43_data_movement.md).
Neither command raises an error of its own.
-/

namespace Sys2Proof.Machine

/-- The rule of MOV: the low `w` bits of the source (43_data_movement.md R200). -/
def ruleMov : Rule := fun _ p => .ok p.a

/-- MOV (43_data_movement.md R200). -/
def execMov (w : Width) (rd rs1 : Reg) (s : State) : Outcome :=
  runCommand (.mov w rd rs1) ruleMov s

/-- The rule of LI: IMM16 sign-extended to 64 bits and cut to the operation width (43_data_movement.md R201,
30_encoding.md R76). -/
def ruleLi (imm : BitVec 16) : Rule := fun n _ => .ok ((imm.signExtend 64).setWidth n)

/-- LI (43_data_movement.md R201, 30_encoding.md R76). -/
def execLi (w : Width) (rd : Reg) (imm : BitVec 16) (s : State) : Outcome :=
  runCommand (.li w rd imm) (ruleLi imm) s

end Sys2Proof.Machine
end

