-- ==== Sys2Proof/Machine/Modular.lean ====
section
/-!
DEFINITION. Modular multiplication and exponentiation (42_modular.md).
Operands and modulus are unsigned; the result is the exact residue for every modulus of at least 1, however an
implementation reduces (R182).
-/

namespace Sys2Proof.Machine

/-- The rule of MULMOD: the product modulo the third operand, or DIVZERO (42_modular.md R180). -/
def ruleMulmod : Rule := fun n p =>
  if uint p.c = 0 then .error .divZero
  else .ok (patNat n (mulModNat (uint p.a % uint p.c) (uint p.b % uint p.c) (uint p.c)))

/-- MULMOD (42_modular.md R180). -/
def execMulmod (w : Width) (rd rs1 rs2 rs3 : Reg) (s : State) : Outcome :=
  runCommand (.mulmod w rd rs1 rs2 rs3) ruleMulmod s

/-- The rule of POWMOD: the power modulo the third operand, or DIVZERO (42_modular.md R181). -/
def rulePowmod : Rule := fun n p =>
  if uint p.c = 0 then .error .divZero
  else if uint p.c = 1 then .ok 0
  else .ok (patNat n (powModLoop (uint p.a) (uint p.b) (uint p.c) n 1))

/-- POWMOD (42_modular.md R181). -/
def execPowmod (w : Width) (rd rs1 rs2 rs3 : Reg) (s : State) : Outcome :=
  runCommand (.powmod w rd rs1 rs2 rs3) rulePowmod s

end Sys2Proof.Machine
end

