-- ==== Sys2Proof/Machine/MulDiv.lean ====
section
/-!
DEFINITION. The multiplier and divider (41_muldiv.md).
Every rule computes on exact integers and then wraps or raises an error (R159). A zero divisor is tested
before the overflow case (R161).
-/

namespace Sys2Proof.Machine

/-- The rule of MUL: the low `w` bits of the product (41_muldiv.md R150). -/
def ruleMul : Rule := fun n p => .ok (pat n (uint p.a * uint p.b))

/-- MUL (41_muldiv.md R150). -/
def execMul (w : Width) (rd rs1 rs2 : Reg) (s : State) : Outcome :=
  runCommand (.mul w rd rs1 rs2) ruleMul s

/-- The rule of MULH: the high `w` bits of the signed product, by floor division (41_muldiv.md R151). -/
def ruleMulh : Rule := fun n p => .ok (pat n ((sint p.a * sint p.b).fdiv (2 ^ n)))

/-- MULH (41_muldiv.md R151). -/
def execMulh (w : Width) (rd rs1 rs2 : Reg) (s : State) : Outcome :=
  runCommand (.mulh w rd rs1 rs2) ruleMulh s

/-- The rule of MULHU: the high `w` bits of the unsigned product (41_muldiv.md R152). -/
def ruleMulhu : Rule := fun n p => .ok (patNat n (uint p.a * uint p.b / 2 ^ n))

/-- MULHU (41_muldiv.md R152). -/
def execMulhu (w : Width) (rd rs1 rs2 : Reg) (s : State) : Outcome :=
  runCommand (.mulhu w rd rs1 rs2) ruleMulhu s

/-- The rule of MULC: the signed product, OVERFLOW when it does not fit (41_muldiv.md R153). -/
def ruleMulc : Rule := fun n p =>
  let product := sint p.a * sint p.b
  if product < -(2 ^ (n - 1)) ∨ product > 2 ^ (n - 1) - 1 then .error .overflow else .ok (pat n product)

/-- MULC (41_muldiv.md R153). -/
def execMulc (w : Width) (rd rs1 rs2 : Reg) (s : State) : Outcome :=
  runCommand (.mulc w rd rs1 rs2) ruleMulc s

/-- The rule of MULCU: the unsigned product, OVERFLOW when it does not fit (41_muldiv.md R154). -/
def ruleMulcu : Rule := fun n p =>
  if uint p.a * uint p.b > 2 ^ n - 1 then .error .overflow else .ok (patNat n (uint p.a * uint p.b))

/-- MULCU (41_muldiv.md R154). -/
def execMulcu (w : Width) (rd rs1 rs2 : Reg) (s : State) : Outcome :=
  runCommand (.mulcu w rd rs1 rs2) ruleMulcu s

/-- The rule of DIV: the signed quotient rounded toward zero, DIVZERO, or OVERFLOW for the one quotient that does
not fit (41_muldiv.md R155). -/
def ruleDiv : Rule := fun n p =>
  if sint p.b = 0 then .error .divZero
  else if sint p.a = -(2 ^ (n - 1)) ∧ sint p.b = -1 then .error .overflow
  else .ok (pat n ((sint p.a).tdiv (sint p.b)))

/-- DIV (41_muldiv.md R155). -/
def execDiv (w : Width) (rd rs1 rs2 : Reg) (s : State) : Outcome :=
  runCommand (.div w rd rs1 rs2) ruleDiv s

/-- The rule of DIVU: the unsigned quotient, or DIVZERO (41_muldiv.md R156). -/
def ruleDivu : Rule := fun n p =>
  if uint p.b = 0 then .error .divZero else .ok (patNat n (uint p.a / uint p.b))

/-- DIVU (41_muldiv.md R156). -/
def execDivu (w : Width) (rd rs1 rs2 : Reg) (s : State) : Outcome :=
  runCommand (.divu w rd rs1 rs2) ruleDivu s

/-- The rule of REM: the signed remainder with the sign of the dividend, or DIVZERO (41_muldiv.md R157). -/
def ruleRem : Rule := fun n p =>
  if sint p.b = 0 then .error .divZero
  else if sint p.a = -(2 ^ (n - 1)) ∧ sint p.b = -1 then .ok 0
  else .ok (pat n (sint p.a - sint p.b * (sint p.a).tdiv (sint p.b)))

/-- REM (41_muldiv.md R157). -/
def execRem (w : Width) (rd rs1 rs2 : Reg) (s : State) : Outcome :=
  runCommand (.rem w rd rs1 rs2) ruleRem s

/-- The rule of REMU: the unsigned remainder, or DIVZERO (41_muldiv.md R158). -/
def ruleRemu : Rule := fun n p =>
  if uint p.b = 0 then .error .divZero else .ok (patNat n (uint p.a % uint p.b))

/-- REMU (41_muldiv.md R158). -/
def execRemu (w : Width) (rd rs1 rs2 : Reg) (s : State) : Outcome :=
  runCommand (.remu w rd rs1 rs2) ruleRemu s

end Sys2Proof.Machine
end

