-- ==== Sys2Proof/Machine/Dispatch.lean ====
section
/-!
DEFINITION. The meaning of each command: one arm per constructor of Instr.
-/

namespace Sys2Proof.Machine

/-- The execution of a command from the values its operands were latched with to its end: the destination written and
DONE set, or an error raised (70_reset_and_hazards.md R250). -/
def exec (i : Instr) (s : State) : Host.Outcome State Fault Refusal :=
  match i with
  | .mov w rd rs1 => Sys2Proof.Machine.execMov w rd rs1 s
  | .li w rd imm => Sys2Proof.Machine.execLi w rd imm s
  | .getbit w rd rs1 rs2 => Sys2Proof.Machine.execGetbit w rd rs1 rs2 s
  | .setbit w rd rs1 rs2 => Sys2Proof.Machine.execSetbit w rd rs1 rs2 s
  | .clrbit w rd rs1 rs2 => Sys2Proof.Machine.execClrbit w rd rs1 rs2 s
  | .flipbit w rd rs1 rs2 => Sys2Proof.Machine.execFlipbit w rd rs1 rs2 s
  | .popcnt w rd rs1 => Sys2Proof.Machine.execPopcnt w rd rs1 s
  | .clz w rd rs1 => Sys2Proof.Machine.execClz w rd rs1 s
  | .ctz w rd rs1 => Sys2Proof.Machine.execCtz w rd rs1 s
  | .bitlen w rd rs1 => Sys2Proof.Machine.execBitlen w rd rs1 s
  | .lsb1 w rd rs1 => Sys2Proof.Machine.execLsb1 w rd rs1 s
  | .msb1 w rd rs1 => Sys2Proof.Machine.execMsb1 w rd rs1 s
  | .foldmsb w rd rs1 => Sys2Proof.Machine.execFoldmsb w rd rs1 s
  | .foldlsb w rd rs1 => Sys2Proof.Machine.execFoldlsb w rd rs1 s
  | .revbits w rd rs1 => Sys2Proof.Machine.execRevbits w rd rs1 s
  | .revbytes w rd rs1 => Sys2Proof.Machine.execRevbytes w rd rs1 s
  | .gray w rd rs1 => Sys2Proof.Machine.execGray w rd rs1 s
  | .igray w rd rs1 => Sys2Proof.Machine.execIgray w rd rs1 s
  | .mul w rd rs1 rs2 => Sys2Proof.Machine.execMul w rd rs1 rs2 s
  | .mulh w rd rs1 rs2 => Sys2Proof.Machine.execMulh w rd rs1 rs2 s
  | .mulhu w rd rs1 rs2 => Sys2Proof.Machine.execMulhu w rd rs1 rs2 s
  | .mulc w rd rs1 rs2 => Sys2Proof.Machine.execMulc w rd rs1 rs2 s
  | .mulcu w rd rs1 rs2 => Sys2Proof.Machine.execMulcu w rd rs1 rs2 s
  | .div w rd rs1 rs2 => Sys2Proof.Machine.execDiv w rd rs1 rs2 s
  | .divu w rd rs1 rs2 => Sys2Proof.Machine.execDivu w rd rs1 rs2 s
  | .rem w rd rs1 rs2 => Sys2Proof.Machine.execRem w rd rs1 rs2 s
  | .remu w rd rs1 rs2 => Sys2Proof.Machine.execRemu w rd rs1 rs2 s
  | .mulmod w rd rs1 rs2 rs3 => Sys2Proof.Machine.execMulmod w rd rs1 rs2 rs3 s
  | .powmod w rd rs1 rs2 rs3 => Sys2Proof.Machine.execPowmod w rd rs1 rs2 rs3 s

end Sys2Proof.Machine
end

