-- ==== Sys2Proof/Machine/Step.lean ====
section
/-!
DEFINITION. One step of the machine is one unit clock cycle: what the outside does in the cycle, then the command
engine (notes/assumptions/3.md). The command that ends in the cycle is run by `exec`.
-/

namespace Sys2Proof.Machine

/-- One unit clock cycle (70_reset_and_hazards.md R250, R251, 60_exceptions.md R219). -/
def step (s : State) : Host.Outcome State Fault Refusal :=
  match engineEvent s (hostPhase s) with
  | .wait t => .next t
  | .ends i => exec i (hostPhase s)
  | .undecodable => .fault .inFlightIllegal

/-- The command word `w` of `nbits` bits placed where the very next step runs it: the unit fetches nothing
(10_state.md R24), so the word is put in flight with its operands latched and its last cycle due
(notes/assumptions/4.md). -/
def State.withFetchWord (s : State) (nbits w : Nat) : State := placeCommand (BitVec.ofNat 32 (w % 2 ^ nbits)) s

end Sys2Proof.Machine
end

