-- ==== Sys2Proof/Safety.lean ====
section
/-!
DEFINITION. The terms that claims about runs use: the access performed in a cycle, the reads of unwritten registers
that the spec calls a model fault (10_state.md R23, 20_memory.md R56), the runs free of them, and the invariant of
the machine.
-/

namespace Sys2Proof.Machine

/-- The accesses at the port in the cycle that begins in `s`, oldest first; none is accepted while the hardware reset
is asserted (70_reset_and_hazards.md R241). -/
def offered (s : State) : List HostAccess :=
  match s.inputs with
  | [] => s.port
  | .quiet :: _ => s.port
  | .access a :: _ => s.port ++ [a]
  | .reset _ :: _ => []

/-- The host access performed in the cycle that begins in `s`: the oldest one offered, unless it is held
(20_memory.md R63, 70_reset_and_hazards.md R251). -/
def performedIn (s : State) : Option HostAccess :=
  match offered s with
  | [] => none
  | a :: _ => if held s a then none else some a

/-- The hardware reset is asserted in the cycle that begins in `s` (70_reset_and_hazards.md R241). -/
def resetIn (s : State) : Bool :=
  match s.inputs with
  | .reset _ :: _ => true
  | _ => false

/-- The source registers of a command (30_encoding.md R79). -/
def sourcesOf (i : Instr) : List Reg :=
  (fieldsOf i).rs1.toList ++ (fieldsOf i).rs2.toList ++ (fieldsOf i).rs3.toList

/-- The command reads an unwritten register as a source: a model fault of 10_state.md R23. -/
def commandReadsUnwritten (i : Instr) (s : State) : Bool := (sourcesOf i).any fun r => !isWritten s r

/-- The access reads a half that nothing has written, or issues a command that reads an unwritten register
(10_state.md R23, 20_memory.md R56). -/
def accessReadsUnwritten (a : HostAccess) (s : State) : Bool :=
  match a with
  | .read off .b8 => accepted off .b8 && !isWritten s (regAt off)
  | .read off size =>
    accepted off size && decide (off.toNat < 0x80) &&
      !(if isHighHalf off then (operandReg s (regAt off)).hiWritten else (operandReg s (regAt off)).loWritten)
  | .write off size v =>
    accepted off size && off == 0x80#8 && !s.err &&
      match decode (v.setWidth 32) with
      | .ok i => commandReadsUnwritten i s
      | .error _ => false

/-- The cycle that begins in `s` makes a read that the spec calls a model fault. The model goes on with the value that
notes/assumptions/1.md names; a claim that must not rest on it takes this as false. -/
def stepReadsUnwritten (s : State) : Bool :=
  match performedIn s with
  | some a => accessReadsUnwritten a s
  | none => false

/-- `k` cycles from `s` without a stop and without a read of an unwritten register. -/
def safeRun : Nat → State → Bool
  | 0, _ => true
  | k + 1, s =>
    !stepReadsUnwritten s &&
      match step s with
      | .next t => safeRun k t
      | .fault _ => false
      | .refused _ => false

/-- The invariant of the machine: no command is in flight while ERR = 1 (10_state.md R26); ERRCODE is 0 exactly while
ERR is 0 (R30); the in-flight record holds a legal word, the operands its source registers still hold (R36,
20_memory.md R63), and a latency not yet over (70_reset_and_hazards.md R253). -/
structure Coherent (s : State) : Prop where
  errNotBusy : s.err = true → s.inFlight = none
  codeWithErr : s.err = false ↔ s.errCode = .none
  record : ∀ r, s.inFlight = some r → ∃ i, decode r.word = .ok i ∧ r.operands = latch i s ∧ 1 ≤ r.remaining

end Sys2Proof.Machine
end

