-- ==== Sys2Proof/Certificates/Slice0/Obligations.lean ====
section
/-!
DEFINITION. The statements about the machine that the provers settle, and the terms they are written in. The helper
definitions spell the next states out field by field, so that each statement says what changes and that nothing else
does.
-/

namespace Sys2Proof.Claims

open Sys2Proof.Machine

/-- Command `i`, run from `s`, ends without error: `v` is in `x[rd]`, which is written, DONE is 1, BUSY is 0, and
nothing else changed (30_encoding.md R78, 10_state.md R27, 70_reset_and_hazards.md R250). -/
def EndsWith (i : Instr) (rd : Reg) (v : Word) (s : State) : Prop :=
  exec i s = .next { s with x := s.x.set rd.toNat ⟨v, true, true⟩ rd.isLt, inFlight := none, done := true }

/-- Command `i`, run from `s`, raises an error: ERR is 1, ERRCODE and ERRCMD are recorded, BUSY is 0, and nothing else
changed (60_exceptions.md R215). -/
def EndsInError (i : Instr) (code : ErrorCode) (s : State) : Prop :=
  exec i s = .next { s with inFlight := none, err := true, errCode := code, errCmd := encode i }

/-- The operand `a` at width `w`: the latched value while a command is in flight, else the low bits of `x[r]`
(30_encoding.md R77; the second case is notes/assumptions/5.md). A register that nothing has written reads as it is
held: notes/assumptions/1.md. -/
def opA (s : State) (r : Reg) (w : Width) : BitVec (widthBits w) :=
  (match s.inFlight with | some f => f.operands.a | none => readReg s r).setWidth (widthBits w)

/-- The operand `b` at width `w` (30_encoding.md R77). -/
def opB (s : State) (r : Reg) (w : Width) : BitVec (widthBits w) :=
  (match s.inFlight with | some f => f.operands.b | none => readReg s r).setWidth (widthBits w)

/-- The operand `c` at width `w` (30_encoding.md R77). -/
def opC (s : State) (r : Reg) (w : Width) : BitVec (widthBits w) :=
  (match s.inFlight with | some f => f.operands.c | none => readReg s r).setWidth (widthBits w)

/-- The bit index: a whole 64-bit value (40_bit_primitives.md R100). -/
def bitIndex (s : State) (r : Reg) : Nat :=
  (match s.inFlight with | some f => f.operands.idx | none => readReg s r).toNat

/-- The command's word carries this opcode (30_encoding.md R80). -/
def HasOpcode (i : Instr) (opc : BitVec 8) : Prop := (encode i).extractLsb' 0 8 = opc

/-- `v` is a `w`-bit pattern with the bits `f`, zero-extended. -/
def HasBits (w : Width) (v : Word) (f : Nat → Bool) : Prop :=
  ∀ j, v.getLsbD j = (decide (j < widthBits w) && f j)

/-- Bit `k` is the most significant 1-bit of `a`. -/
def IsTop {n : Nat} (a : BitVec n) (k : Nat) : Prop := a.getLsbD k = true ∧ ∀ j, k < j → a.getLsbD j = false

/-- Bit `k` is the least significant 1-bit of `a`. -/
def IsLow {n : Nat} (a : BitVec n) (k : Nat) : Prop := a.getLsbD k = true ∧ ∀ j, j < k → a.getLsbD j = false

/-- The value of a `w`-bit result as an unsigned number that fits in the width. -/
def IsUnsigned (w : Width) (v : Word) (n : Nat) : Prop := n < 2 ^ widthBits w ∧ v.toNat = n

/-- `v` holds the `w`-bit two's-complement pattern of `z`, zero-extended, and `z` fits in it (00_scope.md R8). -/
def IsSigned (w : Width) (v : Word) (z : Int) : Prop :=
  v.toNat < 2 ^ widthBits w ∧ (v.setWidth (widthBits w)).toInt = z

/-- `q` and `r` are the quotient of `a` by `b` rounded toward zero and its remainder: the remainder is smaller than
the divisor and 0 or of the dividend's sign (41_muldiv.md R155, R157). -/
def IsTruncDiv (a b q r : Int) : Prop := a = b * q + r ∧ |r| < |b| ∧ (r = 0 ∨ r.sign = a.sign)

/-- `s` after its port has performed the oldest access offered, with the response `resp`, and nothing else done. -/
def answered (s : State) (resp : HostResponse) : State :=
  { s with port := (offered s).tail, inputs := s.inputs.tail, response := some resp }

/-- The cycle that begins in `s` and whose access leads to `u`: with nothing in flight it ends in `u`; with a command
in flight and not in its last cycle it ends in `u` with one cycle counted down; in the command's last cycle it ends as
the command run from `u` (70_reset_and_hazards.md R250; what one cycle is: notes/assumptions/3.md). -/
def StepsBy (s u : State) : Prop :=
  (s.inFlight = none → step s = .next u) ∧
  (∀ r, s.inFlight = some r → 1 < r.remaining →
    step s = .next { u with inFlight := some { r with remaining := r.remaining - 1 } }) ∧
  (∀ r i, s.inFlight = some r → r.remaining ≤ 1 → decode r.word = .ok i → step s = exec i u)

/-- `s` after a STATUS write of `v`: write-1-to-clear, ERRCODE with ERR (10_state.md R25, R28). -/
def clearedBy (v : Word) (s : State) : State :=
  { s with
    done := if v.getLsbD 1 then false else s.done
    err := if v.getLsbD 2 then false else s.err
    errCode := if v.getLsbD 2 then .none else s.errCode
    drop := if v.getLsbD 3 then false else s.drop }

/-- `s` after a CTRL write of `v` with bit 31 at 0: the enables (10_state.md R31). -/
def enabledBy (v : Word) (s : State) : State := { s with ieDone := v.getLsbD 0, ieErr := v.getLsbD 1 }

/-- A write of 4 bytes to CMD. -/
def cmdWrite (v : Word) : HostAccess := .write 0x80#8 .b4 v

/-- A write of 4 bytes to STATUS. -/
def statusWrite (v : Word) : HostAccess := .write 0x84#8 .b4 v

/-- A write of 4 bytes to CTRL. -/
def ctrlWrite (v : Word) : HostAccess := .write 0x88#8 .b4 v

/-- A soft reset is performed in the cycle that begins in `s` (70_reset_and_hazards.md R243). -/
def SoftResetIn (s : State) : Prop := ∃ v, performedIn s = some (ctrlWrite v) ∧ v.getLsbD 31 = true

/-- A STATUS write that clears the field at bit `k` is performed in the cycle that begins in `s` (10_state.md R25). -/
def ClearedIn (k : Nat) (s : State) : Prop := ∃ v, performedIn s = some (statusWrite v) ∧ v.getLsbD k = true

/-- The number of bytes of an access. -/
def byteCount (size : AccessSize) : Nat :=
  match size with
  | .b1 => 1
  | .b2 => 2
  | .b4 => 4
  | .b8 => 8

/-- Every piece of the unit's state is as the spec says it is after a hardware reset; it says no value for the
operand registers, only that they are unwritten (10_state.md R39). -/
def FreshFromReset (s : State) : Prop :=
  statusWord s = 0 ∧ ctrlWord s = 0 ∧ s.errCmd = 0 ∧ s.inFlight = none ∧ irq s = false ∧
    ∀ r, (operandReg s r).loWritten = false ∧ (operandReg s r).hiWritten = false

end Sys2Proof.Claims

open Sys2Proof Sys2Proof.Machine Sys2Proof.Claims

/-- Decode and encode agree on every command (30_encoding.md R71, R72, R83). -/
def Obligations.DecodeEncodeRoundTrip : Prop :=
  ∀ i : Instr, decode (encode i) = .ok i

/-- Every legal command has exactly one word (30_encoding.md R81, 92_eei_decisions.md D7). -/
def Obligations.LegalWordIsTheOnlyWord : Prop :=
  ∀ (word : CmdWord) (i : Instr), decode word = .ok i → encode i = word

/-- The decoder (written from R83) against the match and mask columns of the opcode map (30_encoding.md R80). -/
def Obligations.DecodeFollowsTheOpcodeMap : Prop :=
  (∀ row ∈ opcodeMap, ∀ word : CmdWord,
    (word &&& row.mask = row.matchWord ↔ ∃ i, decode word = .ok i ∧ mnemonic i = row.mnemonic)) ∧
  (∀ word : CmdWord, (∀ row ∈ opcodeMap, word &&& row.mask ≠ row.matchWord) → ∃ e, decode word = .error e) ∧
  (∀ word : CmdWord, wellFormed word = true ↔ ∃ i, decode word = .ok i)

/-- The worked encodings of 30_encoding.md R86. -/
def Obligations.WorkedEncodingsDecode : Prop :=
  decode 0x00004B14#32 = .ok (.popcnt .w64 2 1) ∧ encode (.popcnt .w64 2 1) = 0x00004B14#32 ∧
  decode 0xFFFF0702#32 = .ok (.li .w64 1 0xFFFF) ∧ encode (.li .w64 1 0xFFFF) = 0xFFFF0702#32 ∧
  decode 0x00C85331#32 = .ok (.powmod .w64 4 1 2 3) ∧ encode (.powmod .w64 4 1 2 3) = 0x00C85331#32 ∧
  decode 0x001D9626#32 = .ok (.divu .w32 5 6 7) ∧ encode (.divu .w32 5 6 7) = 0x001D9626#32

/-- Operand fetch (30_encoding.md R77), said of the fields of the command word. The spec gives a part of the record that
the command does not use no value: the 0 there is the model's choice, notes/assumptions/16.md. A source register that
nothing has written is read as it is held: notes/assumptions/1.md. -/
def Obligations.LatchReadsTheSourcesOfTheWord : Prop :=
  ∀ (word : CmdWord) (i : Instr) (s : State), decode word = .ok i →
    let n := widthBits (widthOfCode (word.extractLsb' 8 2))
    let low := fun r : Reg => ((readReg s r).setWidth n).setWidth 64
    let opc := (word.extractLsb' 0 8).toNat
    latch i s =
      { a := if opc = 0x02 then 0 else low (word.extractLsb' 14 4)
        b := if 0x20 ≤ opc then low (word.extractLsb' 18 4) else 0
        c := if 0x30 ≤ opc then low (word.extractLsb' 22 4) else 0
        idx := if 0x10 ≤ opc ∧ opc ≤ 0x13 then readReg s (word.extractLsb' 18 4) else 0 }

/-- MOV (43_data_movement.md R200). -/
def Obligations.MovWritesTheLowBits : Prop :=
  ∀ (w : Width) (rd rs1 : Reg) (s : State),
    HasOpcode (.mov w rd rs1) 0x01 ∧
    ∃ v, EndsWith (.mov w rd rs1) rd v s ∧ HasBits w v (opA s rs1 w).getLsbD

/-- LI (43_data_movement.md R201, 30_encoding.md R76). -/
def Obligations.LiWritesTheSignExtendedImmediate : Prop :=
  ∀ (w : Width) (rd : Reg) (imm : BitVec 16) (s : State), HasOpcode (.li w rd imm) 0x02 ∧
    ∃ v, EndsWith (.li w rd imm) rd v s ∧ HasBits w v fun j => imm.getLsbD (min j 15)

/-- GETBIT (40_bit_primitives.md R101, R100). -/
def Obligations.GetbitReadsTheIndexedBit : Prop :=
  ∀ (w : Width) (rd rs1 rs2 : Reg) (s : State),
    HasOpcode (.getbit w rd rs1 rs2) 0x10 ∧
    (bitIndex s rs2 < widthBits w → ∃ v, EndsWith (.getbit w rd rs1 rs2) rd v s ∧
      HasBits w v (fun j => decide (j = 0) && (opA s rs1 w).getLsbD (bitIndex s rs2))) ∧
    (widthBits w ≤ bitIndex s rs2 → EndsInError (.getbit w rd rs1 rs2) .range s)

/-- SETBIT (40_bit_primitives.md R102, R100). -/
def Obligations.SetbitSetsTheIndexedBit : Prop :=
  ∀ (w : Width) (rd rs1 rs2 : Reg) (s : State),
    HasOpcode (.setbit w rd rs1 rs2) 0x11 ∧
    (bitIndex s rs2 < widthBits w → ∃ v, EndsWith (.setbit w rd rs1 rs2) rd v s ∧
      HasBits w v (fun j => decide (j = bitIndex s rs2) || (opA s rs1 w).getLsbD j)) ∧
    (widthBits w ≤ bitIndex s rs2 → EndsInError (.setbit w rd rs1 rs2) .range s)

/-- CLRBIT (40_bit_primitives.md R103, R100). -/
def Obligations.ClrbitClearsTheIndexedBit : Prop :=
  ∀ (w : Width) (rd rs1 rs2 : Reg) (s : State),
    HasOpcode (.clrbit w rd rs1 rs2) 0x12 ∧
    (bitIndex s rs2 < widthBits w → ∃ v, EndsWith (.clrbit w rd rs1 rs2) rd v s ∧
      HasBits w v (fun j => !decide (j = bitIndex s rs2) && (opA s rs1 w).getLsbD j)) ∧
    (widthBits w ≤ bitIndex s rs2 → EndsInError (.clrbit w rd rs1 rs2) .range s)

/-- FLIPBIT (40_bit_primitives.md R104, R100). -/
def Obligations.FlipbitInvertsTheIndexedBit : Prop :=
  ∀ (w : Width) (rd rs1 rs2 : Reg) (s : State),
    HasOpcode (.flipbit w rd rs1 rs2) 0x13 ∧
    (bitIndex s rs2 < widthBits w → ∃ v, EndsWith (.flipbit w rd rs1 rs2) rd v s ∧
      HasBits w v (fun j => decide (j = bitIndex s rs2) ^^ (opA s rs1 w).getLsbD j)) ∧
    (widthBits w ≤ bitIndex s rs2 → EndsInError (.flipbit w rd rs1 rs2) .range s)

/-- POPCNT (40_bit_primitives.md R110). -/
def Obligations.PopcntCountsTheOneBits : Prop :=
  ∀ (w : Width) (rd rs1 : Reg) (s : State),
    HasOpcode (.popcnt w rd rs1) 0x14 ∧
    EndsWith (.popcnt w rd rs1) rd
      (BitVec.ofNat 64 ((Finset.range (widthBits w)).filter fun j => (opA s rs1 w).getLsbD j = true).card) s

/-- CLZ (40_bit_primitives.md R111). -/
def Obligations.ClzCountsAboveTheTopBit : Prop :=
  ∀ (w : Width) (rd rs1 : Reg) (s : State),
    HasOpcode (.clz w rd rs1) 0x15 ∧
    (opA s rs1 w = 0 → EndsWith (.clz w rd rs1) rd (BitVec.ofNat 64 (widthBits w)) s) ∧
    (∀ k, IsTop (opA s rs1 w) k → EndsWith (.clz w rd rs1) rd (BitVec.ofNat 64 (widthBits w - 1 - k)) s)

/-- CTZ (40_bit_primitives.md R112). -/
def Obligations.CtzCountsBelowTheLowBit : Prop :=
  ∀ (w : Width) (rd rs1 : Reg) (s : State),
    HasOpcode (.ctz w rd rs1) 0x16 ∧
    (opA s rs1 w = 0 → EndsWith (.ctz w rd rs1) rd (BitVec.ofNat 64 (widthBits w)) s) ∧
    (∀ k, IsLow (opA s rs1 w) k → EndsWith (.ctz w rd rs1) rd (BitVec.ofNat 64 k) s)

/-- BITLEN (40_bit_primitives.md R113). -/
def Obligations.BitlenIsTopBitPlusOne : Prop :=
  ∀ (w : Width) (rd rs1 : Reg) (s : State),
    HasOpcode (.bitlen w rd rs1) 0x17 ∧
    (opA s rs1 w = 0 → EndsWith (.bitlen w rd rs1) rd 0 s) ∧
    (∀ k, IsTop (opA s rs1 w) k → EndsWith (.bitlen w rd rs1) rd (BitVec.ofNat 64 (k + 1)) s)

/-- LSB1 (40_bit_primitives.md R114). -/
def Obligations.Lsb1IsolatesTheLowBit : Prop :=
  ∀ (w : Width) (rd rs1 : Reg) (s : State),
    HasOpcode (.lsb1 w rd rs1) 0x18 ∧
    (opA s rs1 w = 0 → EndsWith (.lsb1 w rd rs1) rd 0 s) ∧
    (∀ k, IsLow (opA s rs1 w) k → EndsWith (.lsb1 w rd rs1) rd (BitVec.ofNat 64 (2 ^ k)) s)

/-- MSB1 (40_bit_primitives.md R115). -/
def Obligations.Msb1IsolatesTheTopBit : Prop :=
  ∀ (w : Width) (rd rs1 : Reg) (s : State),
    HasOpcode (.msb1 w rd rs1) 0x19 ∧
    (opA s rs1 w = 0 → EndsWith (.msb1 w rd rs1) rd 0 s) ∧
    (∀ k, IsTop (opA s rs1 w) k → EndsWith (.msb1 w rd rs1) rd (BitVec.ofNat 64 (2 ^ k)) s)

/-- FOLDMSB (40_bit_primitives.md R116). -/
def Obligations.FoldmsbFillsBelowTheTopBit : Prop :=
  ∀ (w : Width) (rd rs1 : Reg) (s : State),
    HasOpcode (.foldmsb w rd rs1) 0x1A ∧
    (opA s rs1 w = 0 → EndsWith (.foldmsb w rd rs1) rd 0 s) ∧
    (∀ k, IsTop (opA s rs1 w) k → EndsWith (.foldmsb w rd rs1) rd (BitVec.ofNat 64 (2 ^ (k + 1) - 1)) s)

/-- FOLDLSB (40_bit_primitives.md R117). -/
def Obligations.FoldlsbFillsAboveTheLowBit : Prop :=
  ∀ (w : Width) (rd rs1 : Reg) (s : State),
    HasOpcode (.foldlsb w rd rs1) 0x1B ∧
    (opA s rs1 w = 0 → EndsWith (.foldlsb w rd rs1) rd 0 s) ∧
    (∀ k, IsLow (opA s rs1 w) k → EndsWith (.foldlsb w rd rs1) rd (BitVec.ofNat 64 (2 ^ widthBits w - 2 ^ k)) s)

/-- REVBITS (40_bit_primitives.md R120). -/
def Obligations.RevbitsMirrorsTheWidth : Prop :=
  ∀ (w : Width) (rd rs1 : Reg) (s : State),
    HasOpcode (.revbits w rd rs1) 0x1C ∧
    ∃ v, EndsWith (.revbits w rd rs1) rd v s ∧
      HasBits w v fun j => (opA s rs1 w).getLsbD (widthBits w - 1 - j)

/-- REVBYTES (40_bit_primitives.md R121). -/
def Obligations.RevbytesMirrorsTheBytes : Prop :=
  ∀ (w : Width) (rd rs1 : Reg) (s : State),
    HasOpcode (.revbytes w rd rs1) 0x1D ∧
    ∃ v, EndsWith (.revbytes w rd rs1) rd v s ∧ v.toNat < 2 ^ widthBits w ∧
      ∀ k, k < widthBits w / 8 →
        v.extractLsb' (8 * k) 8 = (opA s rs1 w).extractLsb' (8 * (widthBits w / 8 - 1 - k)) 8

/-- GRAY (40_bit_primitives.md R122). -/
def Obligations.GrayXorsAdjacentBits : Prop :=
  ∀ (w : Width) (rd rs1 : Reg) (s : State),
    HasOpcode (.gray w rd rs1) 0x1E ∧
    ∃ v, EndsWith (.gray w rd rs1) rd v s ∧
      HasBits w v fun j => (opA s rs1 w).getLsbD j ^^ (opA s rs1 w).getLsbD (j + 1)

/-- IGRAY (40_bit_primitives.md R123). -/
def Obligations.IgrayIsTheParityOfTheBitsAbove : Prop :=
  ∀ (w : Width) (rd rs1 : Reg) (s : State),
    HasOpcode (.igray w rd rs1) 0x1F ∧
    ∃ v, EndsWith (.igray w rd rs1) rd v s ∧
      HasBits w v fun j =>
        ((Finset.Ico j (widthBits w)).filter fun k => (opA s rs1 w).getLsbD k = true).card % 2 == 1

/-- MUL (41_muldiv.md R150). -/
def Obligations.MulWritesTheLowHalf : Prop :=
  ∀ (w : Width) (rd rs1 rs2 : Reg) (s : State),
    HasOpcode (.mul w rd rs1 rs2) 0x20 ∧
    ∃ v, EndsWith (.mul w rd rs1 rs2) rd v s ∧
      IsUnsigned w v ((opA s rs1 w).toNat * (opB s rs2 w).toNat % 2 ^ widthBits w) ∧
      (2 ^ widthBits w : Int) ∣ (opA s rs1 w).toInt * (opB s rs2 w).toInt - v.toNat

/-- MULH (41_muldiv.md R151). -/
def Obligations.MulhWritesTheSignedHighHalf : Prop :=
  ∀ (w : Width) (rd rs1 rs2 : Reg) (s : State),
    HasOpcode (.mulh w rd rs1 rs2) 0x21 ∧
    ∃ (hi : Int) (lo : Nat) (v : Word), lo < 2 ^ widthBits w ∧
      (opA s rs1 w).toInt * (opB s rs2 w).toInt = hi * 2 ^ widthBits w + lo ∧
      IsSigned w v hi ∧ EndsWith (.mulh w rd rs1 rs2) rd v s

/-- MULHU (41_muldiv.md R152). -/
def Obligations.MulhuWritesTheUnsignedHighHalf : Prop :=
  ∀ (w : Width) (rd rs1 rs2 : Reg) (s : State),
    HasOpcode (.mulhu w rd rs1 rs2) 0x22 ∧
    ∃ (hi lo : Nat) (v : Word), lo < 2 ^ widthBits w ∧
      (opA s rs1 w).toNat * (opB s rs2 w).toNat = hi * 2 ^ widthBits w + lo ∧
      IsUnsigned w v hi ∧ EndsWith (.mulhu w rd rs1 rs2) rd v s

/-- MULC (41_muldiv.md R153). -/
def Obligations.MulcChecksTheSignedProduct : Prop :=
  ∀ (w : Width) (rd rs1 rs2 : Reg) (s : State),
    HasOpcode (.mulc w rd rs1 rs2) 0x23 ∧
    let p := (opA s rs1 w).toInt * (opB s rs2 w).toInt
    (-(2 ^ (widthBits w - 1)) ≤ p ∧ p < 2 ^ (widthBits w - 1) →
      ∃ v, IsSigned w v p ∧ EndsWith (.mulc w rd rs1 rs2) rd v s) ∧
    (p < -(2 ^ (widthBits w - 1)) ∨ 2 ^ (widthBits w - 1) ≤ p → EndsInError (.mulc w rd rs1 rs2) .overflow s)

/-- MULCU (41_muldiv.md R154). -/
def Obligations.MulcuChecksTheUnsignedProduct : Prop :=
  ∀ (w : Width) (rd rs1 rs2 : Reg) (s : State),
    HasOpcode (.mulcu w rd rs1 rs2) 0x24 ∧
    let p := (opA s rs1 w).toNat * (opB s rs2 w).toNat
    (p < 2 ^ widthBits w → ∃ v, IsUnsigned w v p ∧ EndsWith (.mulcu w rd rs1 rs2) rd v s) ∧
    (2 ^ widthBits w ≤ p → EndsInError (.mulcu w rd rs1 rs2) .overflow s)

/-- DIV (41_muldiv.md R155). -/
def Obligations.DivTruncatesTowardZero : Prop :=
  ∀ (w : Width) (rd rs1 rs2 : Reg) (s : State),
    HasOpcode (.div w rd rs1 rs2) 0x25 ∧
    let a := (opA s rs1 w).toInt
    let b := (opB s rs2 w).toInt
    (b = 0 → EndsInError (.div w rd rs1 rs2) .divZero s) ∧
    (a = -(2 ^ (widthBits w - 1)) ∧ b = -1 → EndsInError (.div w rd rs1 rs2) .overflow s) ∧
    (b ≠ 0 → ¬(a = -(2 ^ (widthBits w - 1)) ∧ b = -1) →
      ∃ q r v, IsTruncDiv a b q r ∧ IsSigned w v q ∧ EndsWith (.div w rd rs1 rs2) rd v s)

/-- REM (41_muldiv.md R157). -/
def Obligations.RemHasTheSignOfTheDividend : Prop :=
  ∀ (w : Width) (rd rs1 rs2 : Reg) (s : State),
    HasOpcode (.rem w rd rs1 rs2) 0x27 ∧
    let a := (opA s rs1 w).toInt
    let b := (opB s rs2 w).toInt
    (b = 0 → EndsInError (.rem w rd rs1 rs2) .divZero s) ∧
    (b ≠ 0 → ∃ q r v, IsTruncDiv a b q r ∧ IsSigned w v r ∧ EndsWith (.rem w rd rs1 rs2) rd v s)

/-- DIVU and REMU (41_muldiv.md R156, R158). -/
def Obligations.DivuAndRemuDivideUnsigned : Prop :=
  ∀ (w : Width) (rd rs1 rs2 : Reg) (s : State),
    HasOpcode (.divu w rd rs1 rs2) 0x26 ∧ HasOpcode (.remu w rd rs1 rs2) 0x28 ∧
    let a := (opA s rs1 w).toNat
    let b := (opB s rs2 w).toNat
    (b = 0 → EndsInError (.divu w rd rs1 rs2) .divZero s ∧ EndsInError (.remu w rd rs1 rs2) .divZero s) ∧
    (b ≠ 0 → ∃ q r vq vr, a = b * q + r ∧ r < b ∧ IsUnsigned w vq q ∧ IsUnsigned w vr r ∧
      EndsWith (.divu w rd rs1 rs2) rd vq s ∧ EndsWith (.remu w rd rs1 rs2) rd vr s)

/-- MULMOD (42_modular.md R180). -/
def Obligations.MulmodWritesTheExactResidue : Prop :=
  ∀ (w : Width) (rd rs1 rs2 rs3 : Reg) (s : State),
    HasOpcode (.mulmod w rd rs1 rs2 rs3) 0x30 ∧
    let a := (opA s rs1 w).toNat
    let b := (opB s rs2 w).toNat
    let m := (opC s rs3 w).toNat
    (m = 0 → EndsInError (.mulmod w rd rs1 rs2 rs3) .divZero s) ∧
    (m ≠ 0 → ∃ v, IsUnsigned w v (a * b % m) ∧ v.toNat < m ∧ EndsWith (.mulmod w rd rs1 rs2 rs3) rd v s)

/-- POWMOD (42_modular.md R181): the square-and-multiply loop against the power. -/
def Obligations.PowmodWritesTheExactPower : Prop :=
  ∀ (w : Width) (rd rs1 rs2 rs3 : Reg) (s : State),
    HasOpcode (.powmod w rd rs1 rs2 rs3) 0x31 ∧
    let a := (opA s rs1 w).toNat
    let e := (opB s rs2 w).toNat
    let m := (opC s rs3 w).toNat
    (m = 0 → EndsInError (.powmod w rd rs1 rs2 rs3) .divZero s) ∧
    (m ≠ 0 → ∃ v, IsUnsigned w v (a ^ e % m) ∧ EndsWith (.powmod w rd rs1 rs2 rs3) rd v s)

/-- The laws of 40_bit_primitives.md R118 and the inverses of R120, R121, R123, on the functions the meanings call. -/
def Obligations.BitPrimitiveLaws : Prop :=
  ∀ (w : Width) (a : BitVec (widthBits w)),
    (a ≠ 0 → popCount (foldDown a) = bitLength a) ∧
    leadingZeros a + bitLength a = widthBits w ∧
    (a ≠ 0 → (isolateLow a).toNat = 2 ^ trailingZeros a ∧ (isolateHigh a).toNat = 2 ^ (bitLength a - 1)) ∧
    (a ≠ 0 → popCount (foldUp a) = widthBits w - trailingZeros a) ∧
    (popCount a ≤ bitLength a ∧ bitLength a ≤ widthBits w) ∧
    trailingZeros a = leadingZeros (reverseBits a) ∧
    reverseBits (reverseBits a) = a ∧ reverseBytes (reverseBytes a) = a ∧
    fromGray (toGray a) = a ∧ toGray (fromGray a) = a

/-- R250: the result depends only on the command word and the latched operands; R10: all or nothing. -/
def Obligations.OutcomeIsFixedByWordAndOperands : Prop :=
  ∀ (i : Instr) (r : InFlight),
    (∃ v, ∀ s : State, s.inFlight = some r → EndsWith i ((encode i).extractLsb' 10 4) v s) ∨
    (∃ code, (code = .range ∨ code = .divZero ∨ code = .overflow) ∧
      ∀ s : State, s.inFlight = some r → EndsInError i code s)

/-- The frame of all 29 commands at once (00_scope.md R10, 60_exceptions.md R215). -/
def Obligations.CommandFrame : Prop :=
  ∀ (i : Instr) (s : State), ∃ t, exec i s = .next t ∧
    (∀ q : Reg, q ≠ (encode i).extractLsb' 10 4 → operandReg t q = operandReg s q) ∧
    t.drop = s.drop ∧ t.ieDone = s.ieDone ∧ t.ieErr = s.ieErr ∧ t.port = s.port ∧ t.inputs = s.inputs ∧
    t.response = s.response ∧ t.inFlight = none ∧
    ((t.done = true ∧ t.err = s.err ∧ t.errCode = s.errCode ∧ t.errCmd = s.errCmd ∧
        isWritten t ((encode i).extractLsb' 10 4) = true) ∨
      (t.x = s.x ∧ t.done = s.done ∧ t.err = true ∧ t.errCode ≠ .none ∧ t.errCmd = encode i))

/-- The completion half of R250: `step` adds the port's answer of the cycle and nothing else around `exec`.
What one cycle is: notes/assumptions/3.md. -/
def Obligations.StepRunsTheCommandThatEnds : Prop :=
  ∀ (s : State) (r : InFlight) (i : Instr), s.inFlight = some r → decode r.word = .ok i →
    (r.remaining ≤ 1 → s.port = [] → s.inputs = [] → step s = exec i { s with response := none }) ∧
    (1 < r.remaining → s.port = [] → s.inputs = [] →
      step s = .next { s with response := none, inFlight := some { r with remaining := r.remaining - 1 } }) ∧
    (r.remaining ≤ 1 → (hostPhase s).inFlight = some r → step s = exec i (hostPhase s))

/-- How the model puts a command before the next step (notes/assumptions/4.md). -/
def Obligations.PlacedCommandRunsNext : Prop :=
  ∀ (s : State) (i : Instr),
    step (s.withFetchWord 32 (encode i).toNat) =
      exec i { s with
        inFlight := some { word := encode i, operands := latch i s, remaining := 1 }
        port := []
        inputs := []
        response := none }

/-- The issue half of R250. The data 0 in the response to a
write is the model's choice: notes/assumptions/8.md. A command that reads an unwritten register is issued too, a read that
10_state.md R23 calls a model fault: notes/assumptions/1.md. -/
def Obligations.CmdWriteIssuesTheCommand : Prop :=
  ∀ (s : State) (v : Word) (i : Instr), performedIn s = some (cmdWrite v) → s.err = false →
    decode (v.setWidth 32) = .ok i →
    ∃ n, 1 ≤ n ∧ step s = .next { answered s ⟨false, 0⟩ with
      inFlight := some { word := v.setWidth 32, operands := latch i s, remaining := n } }

/-- ILLEGAL at issue (30_encoding.md R81, 60_exceptions.md R216). The data 0 in the response to a
write is the model's choice: notes/assumptions/8.md. -/
def Obligations.IllegalWordIsRecordedAtIssue : Prop :=
  ∀ (s : State) (v : Word), performedIn s = some (cmdWrite v) → s.err = false → wellFormed (v.setWidth 32) = false →
    s.inFlight = none ∧
    step s = .next { answered s ⟨false, 0⟩ with err := true, errCode := .illegal, errCmd := v.setWidth 32 }

/-- Discarded words (10_state.md R29). The data 0 in the response to a
write is the model's choice: notes/assumptions/8.md. -/
def Obligations.CmdWriteIsDroppedWhileErr : Prop :=
  ∀ (s : State) (v : Word), performedIn s = some (cmdWrite v) → s.err = true →
    s.inFlight = none ∧ step s = .next { answered s ⟨false, 0⟩ with drop := true }

/-- Write-1-to-clear (10_state.md R25) and the enables (R31), while BUSY is 0; the same while BUSY is 1 is in
BusyHoldsOperandAndCmdAccesses. The data 0 in the response to a write is the model's choice: notes/assumptions/8.md. -/
def Obligations.StatusAndCtrlWritesWhileIdle : Prop :=
  ∀ (s : State) (v : Word), s.inFlight = none →
    (performedIn s = some (statusWrite v) → step s = .next (clearedBy v (answered s ⟨false, 0⟩))) ∧
    (performedIn s = some (ctrlWrite v) → v.getLsbD 31 = false →
      step s = .next (enabledBy v (answered s ⟨false, 0⟩)))

/-- Same-cycle set and clear (60_exceptions.md R219), for every value written. -/
def Obligations.SetWinsOverClearInOneCycle : Prop :=
  ∀ (s : State) (r : InFlight) (i : Instr) (v : Word), s.inFlight = some r → r.remaining ≤ 1 →
    decode r.word = .ok i → performedIn s = some (statusWrite v) →
    ∃ t, step s = .next t ∧ t.inFlight = none ∧ t.drop = (s.drop && !v.getLsbD 3) ∧
      ((t.done = true ∧ t.err = (s.err && !v.getLsbD 2) ∧
          t.errCode = (if v.getLsbD 2 then .none else s.errCode) ∧ t.errCmd = s.errCmd) ∨
        (t.done = (s.done && !v.getLsbD 1) ∧ t.err = true ∧ t.errCode ≠ .none ∧ t.errCmd = r.word ∧ t.x = s.x))

/-- SoftReset (70_reset_and_hazards.md R243), also in the cycle in which the command would end (60_exceptions.md R219).
The data 0 in the response to a write is the model's choice: notes/assumptions/8.md. -/
def Obligations.SoftResetAbandonsTheCommand : Prop :=
  ∀ (s : State) (v : Word), performedIn s = some (ctrlWrite v) → v.getLsbD 31 = true →
    step s = .next { answered s ⟨false, 0⟩ with
      inFlight := none
      done := false
      err := false
      drop := false
      errCode := .none
      ieDone := false
      ieErr := false
      errCmd := 0#32 }

/-- HostRead (20_memory.md R54), also while BUSY is 1, where only reads at 0x80 and above are performed
(70_reset_and_hazards.md R251). A read in a command's last cycle shows the state before its end:
notes/assumptions/3.md. A register that nothing has written is read as it is held, a read that 10_state.md R23 calls a
model fault: notes/assumptions/1.md. A 4-byte value stands in the low half of the answer: notes/assumptions/8.md. -/
def Obligations.ReadsReturnTheirRegisterAndChangeNothing : Prop :=
  ∀ (s : State) (off : BitVec 8) (size : AccessSize),
    performedIn s = some (.read off size) → accepted off size = true →
    ∃ v, StepsBy s (answered s ⟨false, v⟩) ∧
      (off = 0x80#8 → v = 0) ∧ (off = 0x84#8 → v = (statusWord s).setWidth 64) ∧
      (off = 0x88#8 → v = (ctrlWord s).setWidth 64) ∧ (off = 0x8C#8 → v = s.errCmd.setWidth 64) ∧
      (off = 0x90#8 → v = 0x46500100#64) ∧ (off.toNat < 0x80 → v = readWindow s off size)

/-- The error response (20_memory.md R57, R58). That it is given at once while BUSY is 1 is read from the order of the
tests in R54 and R55: notes/assumptions/13.md. The data 0 in the response to a write is the model's choice:
notes/assumptions/8.md. -/
def Obligations.RefusedAccessesChangeNothing : Prop :=
  ∀ (s : State) (a : HostAccess) (off : BitVec 8) (size : AccessSize),
    (a = .read off size ∨ ∃ v, a = .write off size v) →
    (size = .b1 ∨ size = .b2 ∨ off.toNat % byteCount size ≠ 0 ∨ (size = .b8 ∧ 0x80 ≤ off.toNat) ∨ 0x94 ≤ off.toNat) →
    held s a = false ∧ (performedIn s = some a → StepsBy s (answered s ⟨true, 0⟩))

/-- Little-endian reads (20_memory.md R53). The 0 in the bytes from n on is the model's choice: notes/assumptions/8.md. A
register that nothing has written is read as it is held: notes/assumptions/1.md. -/
def Obligations.OperandReadsAreLittleEndian : Prop :=
  ∀ (s : State) (off : BitVec 8) (size : AccessSize), accepted off size = true → off.toNat < 0x80 →
    ∀ k, (readWindow s off size).extractLsb' (8 * k) 8 =
      if k < byteCount size then
        (readReg s (BitVec.ofNat 4 (off.toNat / 8))).extractLsb' (8 * (off.toNat % 8 + k)) 8
      else 0

/-- HostWrite to x[i] and the written state (20_memory.md R55, R56). The data 0 in the response to a
write is the model's choice: notes/assumptions/8.md. -/
def Obligations.OperandWritesReplaceTheirBytes : Prop :=
  ∀ (s : State) (off : BitVec 8) (size : AccessSize) (v : Word), accepted off size = true → off.toNat < 0x80 →
    s.inFlight = none → performedIn s = some (.write off size v) →
    ∃ x', step s = .next { answered s ⟨false, 0⟩ with x := x' } ∧
      ∀ q : Reg,
        let covered := fun m : Nat =>
          q.toNat = off.toNat / 8 ∧ off.toNat % 8 ≤ m ∧ m < off.toNat % 8 + byteCount size
        let before := operandReg s q
        let after := operandReg { s with x := x' } q
        (∀ m, m < 8 → after.value.extractLsb' (8 * m) 8 =
          if covered m then v.extractLsb' (8 * (m - off.toNat % 8)) 8 else before.value.extractLsb' (8 * m) 8) ∧
        (after.loWritten = true ↔ before.loWritten = true ∨ covered 0) ∧
        (after.hiWritten = true ↔ before.hiWritten = true ∨ covered 4)

/-- The interlock (70_reset_and_hazards.md R251), and what the accesses that it does not hold do. A refused access is
answered at once: notes/assumptions/13.md. The data 0 in the response to a write is the model's choice:
notes/assumptions/8.md. -/
def Obligations.BusyHoldsOperandAndCmdAccesses : Prop :=
  ∀ (s : State) (a : HostAccess) (rest : List HostAccess) (off : BitVec 8) (size : AccessSize),
    s.inFlight ≠ none → offered s = a :: rest →
    (a = .read off size ∨ ∃ v, a = .write off size v) →
    (accepted off size = true ∧ (off.toNat < 0x80 ∨ (off = 0x80#8 ∧ ∃ v, a = .write off size v)) →
      performedIn s = none ∧
      hostPhase s = { s with port := a :: rest, inputs := s.inputs.tail, response := none } ∧
      StepsBy s { s with port := a :: rest, inputs := s.inputs.tail, response := none }) ∧
    (accepted off size = false ∨ 0x80 < off.toNat ∨ a = .read 0x80#8 size →
      performedIn s = some a ∧ (hostPhase s).port = rest ∧ (hostPhase s).x = s.x ∧
      ∃ d, (hostPhase s).response = some ⟨!accepted off size, d⟩) ∧
    (accepted off size = false → StepsBy s (answered s ⟨true, 0⟩)) ∧
    (∀ v, a = statusWrite v → StepsBy s (clearedBy v (answered s ⟨false, 0⟩))) ∧
    (∀ v, a = ctrlWrite v → v.getLsbD 31 = false → StepsBy s (enabledBy v (answered s ⟨false, 0⟩)))

/-- Reset values (10_state.md R39, 70_reset_and_hazards.md R241). -/
def Obligations.HardwareResetLeavesTheResetState : Prop :=
  FreshFromReset State.reset ∧
  ∀ s : State, resetIn s = true →
    performedIn s = none ∧ ∃ t, step s = .next t ∧ FreshFromReset t ∧ t.response = none ∧ t.inputs = s.inputs.tail

/-- The control and status registers as read (10_state.md R25, R31), the error codes (60_exceptions.md R211) and irq
(10_state.md R37). -/
def Obligations.StatusCtrlAndIrqAreTheFields : Prop :=
  (∀ s : State,
    (statusWord s).getLsbD 0 = s.inFlight.isSome ∧ (statusWord s).getLsbD 1 = s.done ∧
    (statusWord s).getLsbD 2 = s.err ∧ (statusWord s).getLsbD 3 = s.drop ∧
    (statusWord s).extractLsb' 4 4 = 0 ∧ (statusWord s).extractLsb' 8 4 =
      (match s.errCode with
        | .none => 0#4
        | .illegal => 1#4
        | .range => 2#4
        | .divZero => 3#4
        | .overflow => 4#4) ∧
    (statusWord s).extractLsb' 12 20 = 0 ∧
    (ctrlWord s).getLsbD 0 = s.ieDone ∧ (ctrlWord s).getLsbD 1 = s.ieErr ∧ (ctrlWord s).extractLsb' 2 30 = 0 ∧
    (irq s = true ↔ (s.done = true ∧ s.ieDone = true) ∨ (s.err = true ∧ s.ieErr = true))) ∧
  irq State.reset = false

/-- The base case of the invariant (10_state.md R26, R30, R36). -/
def Obligations.InvariantHoldsAtReset : Prop :=
  Coherent State.reset

/-- The inductive step, over every input of the outside and every state, reachable or not. -/
def Obligations.StepKeepsTheInvariant : Prop :=
  ∀ s t : State, Coherent s → step s = .next t → Coherent t

/-- Nothing stops the unit: errors are recorded, not trapped (60_exceptions.md R210). A read of an unwritten register, which
10_state.md R23 calls a model fault, does not stop the model either: notes/assumptions/1.md. -/
def Obligations.NoStopFromTheInvariant : Prop :=
  ∀ s : State, Coherent s → ∃ t, step s = .next t

/-- BUSY always returns to 0 (70_reset_and_hazards.md R252). The count of cycles is notes/assumptions/3.md. -/
def Obligations.EveryCommandEnds : Prop :=
  ∀ (s : State) (r : InFlight), Coherent s → s.inFlight = some r →
    ∃ k t, k ≤ r.remaining ∧ Host.Core.run Sys2Proof.core k s = .next t ∧ t.inFlight = none

/-- Every held access is released (70_reset_and_hazards.md R252). The cycle in which it is performed is
notes/assumptions/3.md. -/
def Obligations.HeldAccessIsPerformed : Prop :=
  ∀ (s : State) (r : InFlight) (a : HostAccess) (rest : List HostAccess), Coherent s → s.inFlight = some r →
    offered s = a :: rest → held s a = true →
    (∀ keep, Input.reset keep ∉ s.inputs.take (r.remaining + 1)) →
    ∃ t later, Host.Core.run Sys2Proof.core r.remaining s = .next t ∧ t.inFlight = none ∧
      t.port = a :: (rest ++ later) ∧ performedIn t = some a ∧
      ∃ u d, step t = .next u ∧ u.response = some ⟨false, d⟩

/-- The sticky bits, over every step of the machine (10_state.md R27 to R29). -/
def Obligations.StatusBitsAreSticky : Prop :=
  ∀ s t : State, step s = .next t →
    (s.done = true → t.done = false → resetIn s = true ∨ SoftResetIn s ∨ ClearedIn 1 s) ∧
    (s.err = true → t.err = false → resetIn s = true ∨ SoftResetIn s ∨ ClearedIn 2 s) ∧
    (s.drop = true → t.drop = false → resetIn s = true ∨ SoftResetIn s ∨ ClearedIn 3 s)

/-- ERRCMD over every step of the machine (10_state.md R32). -/
def Obligations.ErrcmdChangesOnlyByErrorOrReset : Prop :=
  ∀ s t : State, step s = .next t → t.errCmd ≠ s.errCmd →
    resetIn s = true ∨ SoftResetIn s ∨
    (t.err = true ∧ ((∃ r, s.inFlight = some r ∧ t.errCmd = r.word) ∨
      ∃ v, performedIn s = some (cmdWrite v) ∧ t.errCmd = v.setWidth 32))

/-- Who can write x0 to x15, over every step of the machine (10_state.md R20). -/
def Obligations.RegistersChangeOnlyByWriteOrCompletion : Prop :=
  ∀ (s t : State) (q : Reg), step s = .next t → operandReg t q ≠ operandReg s q →
    resetIn s = true ∨
    (∃ off size v, performedIn s = some (.write off size v) ∧ accepted off size = true ∧
      off.toNat < 0x80 ∧ off.toNat / 8 = q.toNat) ∨
    (∃ r, s.inFlight = some r ∧ r.word.extractLsb' 10 4 = q ∧ t.inFlight = none ∧ t.done = true)

/-- Writes that are ignored (10_state.md R32, R34, 20_memory.md R55). The data 0 in the response to a write is the model's
choice: notes/assumptions/8.md. -/
def Obligations.IgnoredWritesChangeNothing : Prop :=
  ∀ (s : State) (off : BitVec 8) (v : Word), off = 0x8C#8 ∨ off = 0x90#8 →
    performedIn s = some (.write off .b4 v) → StepsBy s (answered s ⟨false, 0⟩)
end

