-- ==== Sys2Proof/Laws/Bits.lean ====
section
/-!
SUPPORT. What the bit-level functions give, one lemma for each, so that later proofs do not unfold them.
-/

namespace Sys2Proof.Machine

theorem patternOf_getLsbD (n : Nat) (f : Nat → Bool) (i : Nat) :
    (patternOf n f).getLsbD i = (decide (i < n) && f i) := by
  induction n with
  | zero => simp [patternOf]
  | succ n ih =>
    rw [patternOf, BitVec.getLsbD_cons, ih]
    by_cases h : i = n
    · subst h; simp
    · have : (i < n + 1) = (i < n) := propext ⟨fun _ => by omega, fun _ => by omega⟩
      simp [h, this]

theorem highestBelow_eq_some (p : Nat → Bool) (n i : Nat) :
    highestBelow p n = some i ↔ i < n ∧ p i = true ∧ ∀ j, i < j → j < n → p j = false := by
  induction n with
  | zero => simp [highestBelow]
  | succ n ih =>
    rw [highestBelow]
    by_cases hp : p n = true
    · rw [if_pos hp]
      constructor
      · rintro ⟨⟩
        exact ⟨by omega, hp, fun j h1 h2 => by omega⟩
      · rintro ⟨h1, -, h3⟩
        by_contra hne
        have := h3 n (by simp at hne; omega) (by omega)
        simp [hp] at this
    · rw [if_neg hp, ih]
      constructor
      · rintro ⟨h1, h2, h3⟩
        refine ⟨by omega, h2, fun j hj1 hj2 => ?_⟩
        by_cases hjn : j = n
        · subst hjn; simpa using hp
        · exact h3 j hj1 (by omega)
      · rintro ⟨h1, h2, h3⟩
        refine ⟨?_, h2, fun j hj1 hj2 => h3 j hj1 (by omega)⟩
        by_contra hge
        have : i = n := by omega
        exact hp (this ▸ h2)

theorem highestBelow_eq_none (p : Nat → Bool) (n : Nat) :
    highestBelow p n = none ↔ ∀ j, j < n → p j = false := by
  induction n with
  | zero => simp [highestBelow]
  | succ n ih =>
    rw [highestBelow]
    by_cases hp : p n = true
    · rw [if_pos hp]
      constructor
      · rintro ⟨⟩
      · intro h
        have := h n (by omega)
        simp [hp] at this
    · rw [if_neg hp, ih]
      constructor
      · intro h j hj
        by_cases hjn : j = n
        · subst hjn; simpa using hp
        · exact h j (by omega)
      · exact fun h j hj => h j (by omega)

theorem lowestBelow_eq_none (p : Nat → Bool) (n : Nat) :
    lowestBelow p n = none ↔ ∀ j, j < n → p j = false := by
  induction n with
  | zero => simp [lowestBelow]
  | succ n ih =>
    have split : (∀ j, j < n + 1 → p j = false) ↔ (∀ j, j < n → p j = false) ∧ p n = false :=
      ⟨fun h => ⟨fun j hj => h j (by omega), h n (by omega)⟩, fun h j hj => by
        by_cases hjn : j = n
        · rw [hjn]; exact h.2
        · exact h.1 j (by omega)⟩
    rw [split, ← ih, lowestBelow]
    cases lowestBelow p n <;> simp

theorem lowestBelow_sound (p : Nat → Bool) (n i : Nat) (h : lowestBelow p n = some i) :
    i < n ∧ p i = true ∧ ∀ j, j < i → p j = false := by
  induction n with
  | zero => simp [lowestBelow] at h
  | succ n ih =>
    rw [lowestBelow] at h
    cases hl : lowestBelow p n with
    | some k =>
      rw [hl] at h ih
      obtain ⟨h1, h2⟩ := ih h
      exact ⟨by omega, h2⟩
    | none =>
      rw [hl] at h
      by_cases hp : p n = true
      · rw [hp] at h
        obtain rfl : n = i := by simpa using h
        exact ⟨by omega, hp, (lowestBelow_eq_none p n).mp hl⟩
      · simp [hp] at h

theorem lowestBelow_eq_some (p : Nat → Bool) (n i : Nat) :
    lowestBelow p n = some i ↔ i < n ∧ p i = true ∧ ∀ j, j < i → p j = false := by
  refine ⟨lowestBelow_sound p n i, fun ⟨h1, h2, h3⟩ => ?_⟩
  cases hl : lowestBelow p n with
  | none => simp [(lowestBelow_eq_none p n).mp hl i h1] at h2
  | some k =>
    obtain ⟨-, k2, k3⟩ := lowestBelow_sound p n k hl
    rcases Nat.lt_trichotomy i k with hlt | heq | hgt
    · simp [k3 i hlt] at h2
    · rw [heq]
    · simp [h3 k hgt] at k2

theorem countBelow_le (p : Nat → Bool) (n : Nat) : countBelow p n ≤ n := by
  induction n with
  | zero => simp [countBelow]
  | succ n ih =>
    rw [countBelow]
    have := Bool.toNat_le (p n)
    omega

theorem countBelow_eq_card (p : Nat → Bool) (n : Nat) :
    countBelow p n = ((Finset.range n).filter (fun i => p i = true)).card := by
  induction n with
  | zero => simp [countBelow]
  | succ n ih =>
    rw [countBelow, Finset.range_add_one, Finset.filter_insert, ih]
    by_cases h : p n = true
    · rw [if_pos h, Finset.card_insert_of_notMem (by simp)]
      simp [h]
    · simp [h]

theorem sint_eq_toInt {n : Nat} (v : BitVec n) : sint v = v.toInt := by
  rw [sint, BitVec.toInt_eq_msb_cond, BitVec.msb_eq_getLsbD_last]
  norm_cast

theorem uint_eq_toNat {n : Nat} (v : BitVec n) : uint v = v.toNat := rfl

theorem mulModNat_lt (x y m : Nat) (hm : 0 < m) : mulModNat x y m < m := Nat.mod_lt _ hm

end Sys2Proof.Machine
end

