-- ==== Sys2Proof/Laws/State.lean ====
section
/-!
SUPPORT. What each update of the state does to each field: one lemma per field per update, true by rfl.
-/

namespace Sys2Proof.Machine

/-! ### setOperandReg -/

@[simp] theorem setOperandReg_x (s : State) (r : Reg) (v : OperandReg) : (setOperandReg s r v).x = s.x.set r.toNat v r.isLt := rfl
@[simp] theorem setOperandReg_inFlight (s : State) (r : Reg) (v : OperandReg) : (setOperandReg s r v).inFlight = s.inFlight := rfl
@[simp] theorem setOperandReg_done (s : State) (r : Reg) (v : OperandReg) : (setOperandReg s r v).done = s.done := rfl
@[simp] theorem setOperandReg_err (s : State) (r : Reg) (v : OperandReg) : (setOperandReg s r v).err = s.err := rfl
@[simp] theorem setOperandReg_drop (s : State) (r : Reg) (v : OperandReg) : (setOperandReg s r v).drop = s.drop := rfl
@[simp] theorem setOperandReg_errCode (s : State) (r : Reg) (v : OperandReg) : (setOperandReg s r v).errCode = s.errCode := rfl
@[simp] theorem setOperandReg_ieDone (s : State) (r : Reg) (v : OperandReg) : (setOperandReg s r v).ieDone = s.ieDone := rfl
@[simp] theorem setOperandReg_ieErr (s : State) (r : Reg) (v : OperandReg) : (setOperandReg s r v).ieErr = s.ieErr := rfl
@[simp] theorem setOperandReg_errCmd (s : State) (r : Reg) (v : OperandReg) : (setOperandReg s r v).errCmd = s.errCmd := rfl
@[simp] theorem setOperandReg_port (s : State) (r : Reg) (v : OperandReg) : (setOperandReg s r v).port = s.port := rfl
@[simp] theorem setOperandReg_inputs (s : State) (r : Reg) (v : OperandReg) : (setOperandReg s r v).inputs = s.inputs := rfl
@[simp] theorem setOperandReg_response (s : State) (r : Reg) (v : OperandReg) : (setOperandReg s r v).response = s.response := rfl

/-! ### writeReg -/

@[simp] theorem writeReg_x (s : State) (r : Reg) (v : Word) : (writeReg s r v).x = s.x.set r.toNat ⟨v, true, true⟩ r.isLt := rfl
@[simp] theorem writeReg_inFlight (s : State) (r : Reg) (v : Word) : (writeReg s r v).inFlight = s.inFlight := rfl
@[simp] theorem writeReg_done (s : State) (r : Reg) (v : Word) : (writeReg s r v).done = s.done := rfl
@[simp] theorem writeReg_err (s : State) (r : Reg) (v : Word) : (writeReg s r v).err = s.err := rfl
@[simp] theorem writeReg_drop (s : State) (r : Reg) (v : Word) : (writeReg s r v).drop = s.drop := rfl
@[simp] theorem writeReg_errCode (s : State) (r : Reg) (v : Word) : (writeReg s r v).errCode = s.errCode := rfl
@[simp] theorem writeReg_ieDone (s : State) (r : Reg) (v : Word) : (writeReg s r v).ieDone = s.ieDone := rfl
@[simp] theorem writeReg_ieErr (s : State) (r : Reg) (v : Word) : (writeReg s r v).ieErr = s.ieErr := rfl
@[simp] theorem writeReg_errCmd (s : State) (r : Reg) (v : Word) : (writeReg s r v).errCmd = s.errCmd := rfl
@[simp] theorem writeReg_port (s : State) (r : Reg) (v : Word) : (writeReg s r v).port = s.port := rfl
@[simp] theorem writeReg_inputs (s : State) (r : Reg) (v : Word) : (writeReg s r v).inputs = s.inputs := rfl
@[simp] theorem writeReg_response (s : State) (r : Reg) (v : Word) : (writeReg s r v).response = s.response := rfl

/-! ### writeRegLow -/

@[simp] theorem writeRegLow_x (s : State) (r : Reg) (v : BitVec 32) : (writeRegLow s r v).x = s.x.set r.toNat ⟨(readReg s r).extractLsb' 32 32 ++ v, true, (operandReg s r).hiWritten⟩ r.isLt := rfl
@[simp] theorem writeRegLow_inFlight (s : State) (r : Reg) (v : BitVec 32) : (writeRegLow s r v).inFlight = s.inFlight := rfl
@[simp] theorem writeRegLow_done (s : State) (r : Reg) (v : BitVec 32) : (writeRegLow s r v).done = s.done := rfl
@[simp] theorem writeRegLow_err (s : State) (r : Reg) (v : BitVec 32) : (writeRegLow s r v).err = s.err := rfl
@[simp] theorem writeRegLow_drop (s : State) (r : Reg) (v : BitVec 32) : (writeRegLow s r v).drop = s.drop := rfl
@[simp] theorem writeRegLow_errCode (s : State) (r : Reg) (v : BitVec 32) : (writeRegLow s r v).errCode = s.errCode := rfl
@[simp] theorem writeRegLow_ieDone (s : State) (r : Reg) (v : BitVec 32) : (writeRegLow s r v).ieDone = s.ieDone := rfl
@[simp] theorem writeRegLow_ieErr (s : State) (r : Reg) (v : BitVec 32) : (writeRegLow s r v).ieErr = s.ieErr := rfl
@[simp] theorem writeRegLow_errCmd (s : State) (r : Reg) (v : BitVec 32) : (writeRegLow s r v).errCmd = s.errCmd := rfl
@[simp] theorem writeRegLow_port (s : State) (r : Reg) (v : BitVec 32) : (writeRegLow s r v).port = s.port := rfl
@[simp] theorem writeRegLow_inputs (s : State) (r : Reg) (v : BitVec 32) : (writeRegLow s r v).inputs = s.inputs := rfl
@[simp] theorem writeRegLow_response (s : State) (r : Reg) (v : BitVec 32) : (writeRegLow s r v).response = s.response := rfl

/-! ### writeRegHigh -/

@[simp] theorem writeRegHigh_x (s : State) (r : Reg) (v : BitVec 32) : (writeRegHigh s r v).x = s.x.set r.toNat ⟨v ++ (readReg s r).extractLsb' 0 32, (operandReg s r).loWritten, true⟩ r.isLt := rfl
@[simp] theorem writeRegHigh_inFlight (s : State) (r : Reg) (v : BitVec 32) : (writeRegHigh s r v).inFlight = s.inFlight := rfl
@[simp] theorem writeRegHigh_done (s : State) (r : Reg) (v : BitVec 32) : (writeRegHigh s r v).done = s.done := rfl
@[simp] theorem writeRegHigh_err (s : State) (r : Reg) (v : BitVec 32) : (writeRegHigh s r v).err = s.err := rfl
@[simp] theorem writeRegHigh_drop (s : State) (r : Reg) (v : BitVec 32) : (writeRegHigh s r v).drop = s.drop := rfl
@[simp] theorem writeRegHigh_errCode (s : State) (r : Reg) (v : BitVec 32) : (writeRegHigh s r v).errCode = s.errCode := rfl
@[simp] theorem writeRegHigh_ieDone (s : State) (r : Reg) (v : BitVec 32) : (writeRegHigh s r v).ieDone = s.ieDone := rfl
@[simp] theorem writeRegHigh_ieErr (s : State) (r : Reg) (v : BitVec 32) : (writeRegHigh s r v).ieErr = s.ieErr := rfl
@[simp] theorem writeRegHigh_errCmd (s : State) (r : Reg) (v : BitVec 32) : (writeRegHigh s r v).errCmd = s.errCmd := rfl
@[simp] theorem writeRegHigh_port (s : State) (r : Reg) (v : BitVec 32) : (writeRegHigh s r v).port = s.port := rfl
@[simp] theorem writeRegHigh_inputs (s : State) (r : Reg) (v : BitVec 32) : (writeRegHigh s r v).inputs = s.inputs := rfl
@[simp] theorem writeRegHigh_response (s : State) (r : Reg) (v : BitVec 32) : (writeRegHigh s r v).response = s.response := rfl

/-! ### complete -/

@[simp] theorem complete_x (rd : Reg) (v : Word) (s : State) : (complete rd v s).x = s.x.set rd.toNat ⟨v, true, true⟩ rd.isLt := rfl
@[simp] theorem complete_inFlight (rd : Reg) (v : Word) (s : State) : (complete rd v s).inFlight = none := rfl
@[simp] theorem complete_done (rd : Reg) (v : Word) (s : State) : (complete rd v s).done = true := rfl
@[simp] theorem complete_err (rd : Reg) (v : Word) (s : State) : (complete rd v s).err = s.err := rfl
@[simp] theorem complete_drop (rd : Reg) (v : Word) (s : State) : (complete rd v s).drop = s.drop := rfl
@[simp] theorem complete_errCode (rd : Reg) (v : Word) (s : State) : (complete rd v s).errCode = s.errCode := rfl
@[simp] theorem complete_ieDone (rd : Reg) (v : Word) (s : State) : (complete rd v s).ieDone = s.ieDone := rfl
@[simp] theorem complete_ieErr (rd : Reg) (v : Word) (s : State) : (complete rd v s).ieErr = s.ieErr := rfl
@[simp] theorem complete_errCmd (rd : Reg) (v : Word) (s : State) : (complete rd v s).errCmd = s.errCmd := rfl
@[simp] theorem complete_port (rd : Reg) (v : Word) (s : State) : (complete rd v s).port = s.port := rfl
@[simp] theorem complete_inputs (rd : Reg) (v : Word) (s : State) : (complete rd v s).inputs = s.inputs := rfl
@[simp] theorem complete_response (rd : Reg) (v : Word) (s : State) : (complete rd v s).response = s.response := rfl

/-! ### raiseError -/

@[simp] theorem raiseError_x (code : ErrorCode) (word : CmdWord) (s : State) : (raiseError code word s).x = s.x := rfl
@[simp] theorem raiseError_inFlight (code : ErrorCode) (word : CmdWord) (s : State) : (raiseError code word s).inFlight = none := rfl
@[simp] theorem raiseError_done (code : ErrorCode) (word : CmdWord) (s : State) : (raiseError code word s).done = s.done := rfl
@[simp] theorem raiseError_err (code : ErrorCode) (word : CmdWord) (s : State) : (raiseError code word s).err = true := rfl
@[simp] theorem raiseError_drop (code : ErrorCode) (word : CmdWord) (s : State) : (raiseError code word s).drop = s.drop := rfl
@[simp] theorem raiseError_errCode (code : ErrorCode) (word : CmdWord) (s : State) : (raiseError code word s).errCode = code := rfl
@[simp] theorem raiseError_ieDone (code : ErrorCode) (word : CmdWord) (s : State) : (raiseError code word s).ieDone = s.ieDone := rfl
@[simp] theorem raiseError_ieErr (code : ErrorCode) (word : CmdWord) (s : State) : (raiseError code word s).ieErr = s.ieErr := rfl
@[simp] theorem raiseError_errCmd (code : ErrorCode) (word : CmdWord) (s : State) : (raiseError code word s).errCmd = word := rfl
@[simp] theorem raiseError_port (code : ErrorCode) (word : CmdWord) (s : State) : (raiseError code word s).port = s.port := rfl
@[simp] theorem raiseError_inputs (code : ErrorCode) (word : CmdWord) (s : State) : (raiseError code word s).inputs = s.inputs := rfl
@[simp] theorem raiseError_response (code : ErrorCode) (word : CmdWord) (s : State) : (raiseError code word s).response = s.response := rfl

/-! ### softReset -/

@[simp] theorem softReset_x (s : State) : (softReset s).x = s.x := rfl
@[simp] theorem softReset_inFlight (s : State) : (softReset s).inFlight = none := rfl
@[simp] theorem softReset_done (s : State) : (softReset s).done = false := rfl
@[simp] theorem softReset_err (s : State) : (softReset s).err = false := rfl
@[simp] theorem softReset_drop (s : State) : (softReset s).drop = false := rfl
@[simp] theorem softReset_errCode (s : State) : (softReset s).errCode = .none := rfl
@[simp] theorem softReset_ieDone (s : State) : (softReset s).ieDone = false := rfl
@[simp] theorem softReset_ieErr (s : State) : (softReset s).ieErr = false := rfl
@[simp] theorem softReset_errCmd (s : State) : (softReset s).errCmd = 0#32 := rfl
@[simp] theorem softReset_port (s : State) : (softReset s).port = s.port := rfl
@[simp] theorem softReset_inputs (s : State) : (softReset s).inputs = s.inputs := rfl
@[simp] theorem softReset_response (s : State) : (softReset s).response = s.response := rfl

/-! ### hardwareReset -/

@[simp] theorem hardwareReset_x (keep : Bool) (s : State) : (hardwareReset keep s).x = State.reset.x := rfl
@[simp] theorem hardwareReset_inFlight (keep : Bool) (s : State) : (hardwareReset keep s).inFlight = none := rfl
@[simp] theorem hardwareReset_done (keep : Bool) (s : State) : (hardwareReset keep s).done = false := rfl
@[simp] theorem hardwareReset_err (keep : Bool) (s : State) : (hardwareReset keep s).err = false := rfl
@[simp] theorem hardwareReset_drop (keep : Bool) (s : State) : (hardwareReset keep s).drop = false := rfl
@[simp] theorem hardwareReset_errCode (keep : Bool) (s : State) : (hardwareReset keep s).errCode = .none := rfl
@[simp] theorem hardwareReset_ieDone (keep : Bool) (s : State) : (hardwareReset keep s).ieDone = false := rfl
@[simp] theorem hardwareReset_ieErr (keep : Bool) (s : State) : (hardwareReset keep s).ieErr = false := rfl
@[simp] theorem hardwareReset_errCmd (keep : Bool) (s : State) : (hardwareReset keep s).errCmd = 0#32 := rfl
@[simp] theorem hardwareReset_port (keep : Bool) (s : State) : (hardwareReset keep s).port = if keep then s.port else [] := rfl
@[simp] theorem hardwareReset_inputs (keep : Bool) (s : State) : (hardwareReset keep s).inputs = s.inputs := rfl
@[simp] theorem hardwareReset_response (keep : Bool) (s : State) : (hardwareReset keep s).response = none := rfl

/-! ### issue -/

@[simp] theorem issue_x (i : Instr) (word : CmdWord) (s : State) : (issue i word s).x = s.x := rfl
@[simp] theorem issue_inFlight (i : Instr) (word : CmdWord) (s : State) : (issue i word s).inFlight = some ⟨word, latch i s, latencyOf i (latch i s)⟩ := rfl
@[simp] theorem issue_done (i : Instr) (word : CmdWord) (s : State) : (issue i word s).done = s.done := rfl
@[simp] theorem issue_err (i : Instr) (word : CmdWord) (s : State) : (issue i word s).err = s.err := rfl
@[simp] theorem issue_drop (i : Instr) (word : CmdWord) (s : State) : (issue i word s).drop = s.drop := rfl
@[simp] theorem issue_errCode (i : Instr) (word : CmdWord) (s : State) : (issue i word s).errCode = s.errCode := rfl
@[simp] theorem issue_ieDone (i : Instr) (word : CmdWord) (s : State) : (issue i word s).ieDone = s.ieDone := rfl
@[simp] theorem issue_ieErr (i : Instr) (word : CmdWord) (s : State) : (issue i word s).ieErr = s.ieErr := rfl
@[simp] theorem issue_errCmd (i : Instr) (word : CmdWord) (s : State) : (issue i word s).errCmd = s.errCmd := rfl
@[simp] theorem issue_port (i : Instr) (word : CmdWord) (s : State) : (issue i word s).port = s.port := rfl
@[simp] theorem issue_inputs (i : Instr) (word : CmdWord) (s : State) : (issue i word s).inputs = s.inputs := rfl
@[simp] theorem issue_response (i : Instr) (word : CmdWord) (s : State) : (issue i word s).response = s.response := rfl

/-! ### dropWord -/

@[simp] theorem dropWord_x (s : State) : (dropWord s).x = s.x := rfl
@[simp] theorem dropWord_inFlight (s : State) : (dropWord s).inFlight = s.inFlight := rfl
@[simp] theorem dropWord_done (s : State) : (dropWord s).done = s.done := rfl
@[simp] theorem dropWord_err (s : State) : (dropWord s).err = s.err := rfl
@[simp] theorem dropWord_drop (s : State) : (dropWord s).drop = true := rfl
@[simp] theorem dropWord_errCode (s : State) : (dropWord s).errCode = s.errCode := rfl
@[simp] theorem dropWord_ieDone (s : State) : (dropWord s).ieDone = s.ieDone := rfl
@[simp] theorem dropWord_ieErr (s : State) : (dropWord s).ieErr = s.ieErr := rfl
@[simp] theorem dropWord_errCmd (s : State) : (dropWord s).errCmd = s.errCmd := rfl
@[simp] theorem dropWord_port (s : State) : (dropWord s).port = s.port := rfl
@[simp] theorem dropWord_inputs (s : State) : (dropWord s).inputs = s.inputs := rfl
@[simp] theorem dropWord_response (s : State) : (dropWord s).response = s.response := rfl

/-! ### clearStatus -/

@[simp] theorem clearStatus_x (v : BitVec 32) (s : State) : (clearStatus v s).x = s.x := rfl
@[simp] theorem clearStatus_inFlight (v : BitVec 32) (s : State) : (clearStatus v s).inFlight = s.inFlight := rfl
@[simp] theorem clearStatus_done (v : BitVec 32) (s : State) : (clearStatus v s).done = (s.done && !v.getLsbD 1) := rfl
@[simp] theorem clearStatus_err (v : BitVec 32) (s : State) : (clearStatus v s).err = (s.err && !v.getLsbD 2) := rfl
@[simp] theorem clearStatus_drop (v : BitVec 32) (s : State) : (clearStatus v s).drop = (s.drop && !v.getLsbD 3) := rfl
@[simp] theorem clearStatus_errCode (v : BitVec 32) (s : State) : (clearStatus v s).errCode = if v.getLsbD 2 then .none else s.errCode := rfl
@[simp] theorem clearStatus_ieDone (v : BitVec 32) (s : State) : (clearStatus v s).ieDone = s.ieDone := rfl
@[simp] theorem clearStatus_ieErr (v : BitVec 32) (s : State) : (clearStatus v s).ieErr = s.ieErr := rfl
@[simp] theorem clearStatus_errCmd (v : BitVec 32) (s : State) : (clearStatus v s).errCmd = s.errCmd := rfl
@[simp] theorem clearStatus_port (v : BitVec 32) (s : State) : (clearStatus v s).port = s.port := rfl
@[simp] theorem clearStatus_inputs (v : BitVec 32) (s : State) : (clearStatus v s).inputs = s.inputs := rfl
@[simp] theorem clearStatus_response (v : BitVec 32) (s : State) : (clearStatus v s).response = s.response := rfl

/-! ### setEnables -/

@[simp] theorem setEnables_x (v : BitVec 32) (s : State) : (setEnables v s).x = s.x := rfl
@[simp] theorem setEnables_inFlight (v : BitVec 32) (s : State) : (setEnables v s).inFlight = s.inFlight := rfl
@[simp] theorem setEnables_done (v : BitVec 32) (s : State) : (setEnables v s).done = s.done := rfl
@[simp] theorem setEnables_err (v : BitVec 32) (s : State) : (setEnables v s).err = s.err := rfl
@[simp] theorem setEnables_drop (v : BitVec 32) (s : State) : (setEnables v s).drop = s.drop := rfl
@[simp] theorem setEnables_errCode (v : BitVec 32) (s : State) : (setEnables v s).errCode = s.errCode := rfl
@[simp] theorem setEnables_ieDone (v : BitVec 32) (s : State) : (setEnables v s).ieDone = v.getLsbD 0 := rfl
@[simp] theorem setEnables_ieErr (v : BitVec 32) (s : State) : (setEnables v s).ieErr = v.getLsbD 1 := rfl
@[simp] theorem setEnables_errCmd (v : BitVec 32) (s : State) : (setEnables v s).errCmd = s.errCmd := rfl
@[simp] theorem setEnables_port (v : BitVec 32) (s : State) : (setEnables v s).port = s.port := rfl
@[simp] theorem setEnables_inputs (v : BitVec 32) (s : State) : (setEnables v s).inputs = s.inputs := rfl
@[simp] theorem setEnables_response (v : BitVec 32) (s : State) : (setEnables v s).response = s.response := rfl

end Sys2Proof.Machine
end

