-- ==== Sys2Proof/Laws/Ops.lean ====
section
/-!
SUPPORT. What each shared operation can do, said once: later proofs cite these lemmas and do not unfold the
operations.
-/

namespace Sys2Proof.Machine

/-! ## Registers -/

@[simp] theorem operandReg_setOperandReg_same (s : State) (r : Reg) (v : OperandReg) :
    operandReg (setOperandReg s r v) r = v := by
  simp [operandReg, setOperandReg]

theorem operandReg_setOperandReg_ne (s : State) (r q : Reg) (v : OperandReg) (h : q ≠ r) :
    operandReg (setOperandReg s r v) q = operandReg s q := by
  have hne : r.toNat ≠ q.toNat := fun e => h (BitVec.eq_of_toNat_eq e.symm)
  simp [operandReg, setOperandReg, hne]

theorem readReg_writeReg (s : State) (r q : Reg) (v : Word) :
    readReg (writeReg s r v) q = if q = r then v else readReg s q := by
  by_cases h : q = r
  · subst h; simp [readReg, writeReg]
  · simp [readReg, writeReg, operandReg_setOperandReg_ne, h]

theorem isWritten_writeReg (s : State) (r q : Reg) (v : Word) :
    isWritten (writeReg s r v) q = (decide (q = r) || isWritten s q) := by
  by_cases h : q = r
  · subst h; simp [isWritten, writeReg]
  · simp [isWritten, writeReg, operandReg_setOperandReg_ne, h]

theorem operandReg_writeRegLow_same (s : State) (r : Reg) (v : BitVec 32) :
    operandReg (writeRegLow s r v) r =
      ⟨(readReg s r).extractLsb' 32 32 ++ v, true, (operandReg s r).hiWritten⟩ := by
  simp [writeRegLow, readReg]

theorem operandReg_writeRegHigh_same (s : State) (r : Reg) (v : BitVec 32) :
    operandReg (writeRegHigh s r v) r =
      ⟨v ++ (readReg s r).extractLsb' 0 32, (operandReg s r).loWritten, true⟩ := by
  simp [writeRegHigh, readReg]

theorem operandReg_writeRegLow_ne (s : State) (r q : Reg) (v : BitVec 32) (h : q ≠ r) :
    operandReg (writeRegLow s r v) q = operandReg s q := operandReg_setOperandReg_ne s r q _ h

theorem operandReg_writeRegHigh_ne (s : State) (r q : Reg) (v : BitVec 32) (h : q ≠ r) :
    operandReg (writeRegHigh s r v) q = operandReg s q := operandReg_setOperandReg_ne s r q _ h

theorem operandReg_congr {s t : State} (h : s.x = t.x) (r : Reg) : operandReg s r = operandReg t r := by
  simp [operandReg, h]

theorem latch_congr {s t : State} (h : s.x = t.x) (i : Instr) : latch i s = latch i t := by
  have hr : readReg s = readReg t := funext fun r => by simp [readReg, operandReg_congr h r]
  simp [latch, fetchLow, hr]

theorem operandReg_complete_ne (rd q : Reg) (v : Word) (s : State) (h : q ≠ rd) :
    operandReg (complete rd v s) q = operandReg s q := operandReg_setOperandReg_ne s rd q _ h

theorem operandReg_complete_same (rd : Reg) (v : Word) (s : State) :
    operandReg (complete rd v s) rd = ⟨v, true, true⟩ := operandReg_setOperandReg_same s rd _

/-! ## Operands -/

theorem operandsFor_idle (i : Instr) (s : State) (h : s.inFlight = none) : operandsFor i s = latch i s := by
  simp [operandsFor, h]

theorem operandsFor_inFlight (i : Instr) (s : State) (r : InFlight) (h : s.inFlight = some r) :
    operandsFor i s = r.operands := by
  simp [operandsFor, h]

theorem lowBits_getLsbD (w : Width) (v : Word) (j : Nat) :
    (lowBits w v).getLsbD j = (decide (j < widthBits w) && v.getLsbD j) := by
  have : widthBits w ≤ 64 := by cases w <;> decide
  by_cases h : j < widthBits w
  · simp [lowBits, h, show j < 64 by omega]
  · simp [lowBits, h]

theorem widthBits_pos (w : Width) : 0 < widthBits w := by cases w <;> decide

theorem widthBits_le (w : Width) : widthBits w ≤ 64 := by cases w <;> decide

/-! ## How a command ends -/

theorem runCommand_cases (i : Instr) (rule : Rule) (s : State) :
    (∃ v, evaluate i rule (operandsFor i s) = .ok v ∧ runCommand i rule s = .next (complete (fieldsOf i).rd v s)) ∨
    (∃ code, evaluate i rule (operandsFor i s) = .error code ∧
      runCommand i rule s = .next (raiseError code (encode i) s)) := by
  unfold runCommand
  cases h : evaluate i rule (operandsFor i s) with
  | ok v => exact .inl ⟨v, rfl, rfl⟩
  | error code => exact .inr ⟨code, rfl, rfl⟩

theorem runCommand_ok {i : Instr} {rule : Rule} {s : State} {v : Word}
    (h : evaluate i rule (operandsFor i s) = .ok v) :
    runCommand i rule s = .next (complete (fieldsOf i).rd v s) := by
  simp [runCommand, h]

theorem runCommand_error {i : Instr} {rule : Rule} {s : State} {code : ErrorCode}
    (h : evaluate i rule (operandsFor i s) = .error code) :
    runCommand i rule s = .next (raiseError code (encode i) s) := by
  simp [runCommand, h]

/-! ## Issue -/

theorem issueOrDrop_cases (word : CmdWord) (s : State) :
    (s.err = true ∧ issueOrDrop word s = dropWord s) ∨
    (s.err = false ∧ ∃ i, decode word = .ok i ∧ issueOrDrop word s = issue i word s) ∨
    (s.err = false ∧ ∃ e, decode word = .error e ∧ issueOrDrop word s = raiseError .illegal word s) := by
  unfold issueOrDrop
  cases hs : s.err with
  | true => exact .inl ⟨rfl, rfl⟩
  | false =>
    cases hd : decode word with
    | ok i => exact .inr (.inl ⟨rfl, i, rfl, rfl⟩)
    | error e => exact .inr (.inr ⟨rfl, e, rfl, rfl⟩)

theorem latencyOf_pos (i : Instr) (o : Operands) : 1 ≤ latencyOf i o := by simp [latencyOf]

/-! ## The register window -/

theorem writeWindow_cases (s : State) (off : BitVec 8) (size : AccessSize) (v : Word) :
    (off.toNat < 0x80 ∧ writeWindow s off size v = writeOperandWindow s off size v) ∨
    (off = 0x80#8 ∧ writeWindow s off size v = issueOrDrop (v.setWidth 32) s) ∨
    (off = 0x84#8 ∧ writeWindow s off size v = clearStatus (v.setWidth 32) s) ∨
    (off = 0x88#8 ∧ writeWindow s off size v = writeCtrl (v.setWidth 32) s) ∨
    (0x88 < off.toNat ∨ ¬ off.toNat % 4 = 0) ∧ writeWindow s off size v = s := by
  unfold writeWindow
  by_cases h : off.toNat < 0x80
  · exact .inl ⟨h, by simp [h]⟩
  · rw [if_neg h]
    by_cases h0 : off = 0x80#8
    · exact .inr (.inl ⟨h0, by subst h0; rfl⟩)
    by_cases h4 : off = 0x84#8
    · exact .inr (.inr (.inl ⟨h4, by subst h4; rfl⟩))
    by_cases h8 : off = 0x88#8
    · exact .inr (.inr (.inr (.inl ⟨h8, by subst h8; rfl⟩)))
    · refine .inr (.inr (.inr (.inr ⟨?_, ?_⟩)))
      · have k (n : Nat) (hn : n < 256) (hne : off ≠ BitVec.ofNat 8 n) : off.toNat ≠ n := fun e =>
          hne (by rw [← e]; simp)
        have := k 0x80 (by omega) h0
        have := k 0x84 (by omega) h4
        have := k 0x88 (by omega) h8
        omega
      · split <;> simp_all

theorem writeCtrl_cases (v : BitVec 32) (s : State) :
    (v.getLsbD 31 = true ∧ writeCtrl v s = softReset s) ∨ (v.getLsbD 31 = false ∧ writeCtrl v s = setEnables v s) := by
  unfold writeCtrl
  cases h : v.getLsbD 31
  · exact .inr ⟨rfl, by simp⟩
  · exact .inl ⟨rfl, by simp⟩

theorem writeOperandWindow_cases (s : State) (off : BitVec 8) (size : AccessSize) (v : Word) :
    ∃ q, writeOperandWindow s off size v = setOperandReg s (regAt off) q := by
  unfold writeOperandWindow
  cases size
  case b8 => exact ⟨_, rfl⟩
  all_goals
    by_cases h : isHighHalf off = true
    · exact ⟨_, if_pos h⟩
    · exact ⟨_, if_neg h⟩

/-- An access that is held changes nothing and gets no response; one that is not accepted gets SLVERR; a read that is
accepted gives its value; a write that is accepted has its effect. -/
theorem perform_cases (a : HostAccess) (s : State) :
    (∃ off size, (a = .read off size ∨ ∃ v, a = .write off size v) ∧ accepted off size = false ∧
      perform a s = { s with response := some ⟨true, 0⟩ }) ∨
    (∃ off size, a = .read off size ∧ accepted off size = true ∧
      perform a s = { s with response := some ⟨false, readWindow s off size⟩ }) ∨
    (∃ off size v, a = .write off size v ∧ accepted off size = true ∧
      perform a s = { writeWindow s off size v with response := some ⟨false, 0⟩ }) := by
  cases a with
  | read off size =>
    cases h : accepted off size
    · exact .inl ⟨off, size, .inl rfl, h, by simp [perform, h]⟩
    · exact .inr (.inl ⟨off, size, rfl, h, by simp [perform, h]⟩)
  | write off size v =>
    cases h : accepted off size
    · exact .inl ⟨off, size, .inr ⟨v, rfl⟩, h, by simp [perform, h]⟩
    · exact .inr (.inr ⟨off, size, v, rfl, h, by simp [perform, h]⟩)

theorem servePort_cases (s : State) :
    (s.port = [] ∧ servePort s = { s with response := none }) ∨
    (∃ a rest, s.port = a :: rest ∧ held s a = true ∧ servePort s = { s with response := none }) ∨
    (∃ a rest, s.port = a :: rest ∧ held s a = false ∧ servePort s = perform a { s with port := rest }) := by
  unfold servePort
  cases hp : s.port with
  | nil => exact .inl ⟨rfl, rfl⟩
  | cons a rest =>
    cases hh : held s a
    · exact .inr (.inr ⟨a, rest, rfl, hh, by simp [hh]⟩)
    · exact .inr (.inl ⟨a, rest, rfl, hh, by simp [hh]⟩)

/-- Either the hardware reset is asserted, or the port is served with the accesses offered. -/
theorem hostPhase_cases (s : State) :
    (∃ keep rest, s.inputs = .reset keep :: rest ∧ hostPhase s = hardwareReset keep { s with inputs := rest }) ∨
    (∃ rest port, hostPhase s = servePort { s with inputs := rest, port := port } ∧
      (∀ k r, s.inputs ≠ .reset k :: r) ∧ (port = s.port ∨ ∃ a, port = s.port ++ [a])) := by
  unfold hostPhase
  cases hi : s.inputs with
  | nil =>
    refine .inr ⟨[], s.port, ?_, by simp, .inl rfl⟩
    cases s; simp_all
  | cons i rest =>
    cases i with
    | quiet => exact .inr ⟨rest, s.port, rfl, by simp, .inl rfl⟩
    | access a => exact .inr ⟨rest, s.port ++ [a], rfl, by simp, .inr ⟨a, rfl⟩⟩
    | reset keep => exact .inl ⟨keep, rest, rfl, rfl⟩

/-! ## The engine -/

theorem engineEvent_idle (before after : State) (h : before.inFlight = none) :
    engineEvent before after = .wait after := by
  simp [engineEvent, busy, h]

theorem engineEvent_abandoned (before after : State) (h : after.inFlight = none) :
    engineEvent before after = .wait after := by
  simp [engineEvent, h]

theorem engineEvent_busy (before after : State) (r : InFlight) (hb : before.inFlight ≠ none)
    (ha : after.inFlight = some r) :
    (1 < r.remaining ∧ engineEvent before after =
      .wait { after with inFlight := some { r with remaining := r.remaining - 1 } }) ∨
    (r.remaining ≤ 1 ∧ ∃ i, decode r.word = .ok i ∧ engineEvent before after = .ends i) ∨
    (r.remaining ≤ 1 ∧ ∃ e, decode r.word = .error e ∧ engineEvent before after = .undecodable) := by
  have hb' : busy before = true := by simpa [busy, Option.isSome_iff_ne_none] using hb
  unfold engineEvent
  rw [if_pos hb', ha]
  by_cases hr : r.remaining ≤ 1
  · cases hd : decode r.word with
    | ok i => exact .inr (.inl ⟨hr, i, rfl, by simp [hr, hd]⟩)
    | error e => exact .inr (.inr ⟨hr, e, rfl, by simp [hr, hd]⟩)
  · exact .inl ⟨by omega, by simp [hr]⟩

end Sys2Proof.Machine
end

