-- ==== Sys2Proof/Laws/Cycle.lean ====
section
/-!
SUPPORT. The outside's part of one cycle, said once by what is performed in it: an access, nothing, or the hardware
reset.
-/

namespace Sys2Proof.Machine

/-- The cycle in which access `a` is performed. -/
theorem hostPhase_performed (s : State) (a : HostAccess) (h : performedIn s = some a) :
    hostPhase s = perform a { s with port := (offered s).tail, inputs := s.inputs.tail } ∧ held s a = false ∧
      resetIn s = false := by
  unfold performedIn at h
  unfold offered at *
  unfold hostPhase resetIn
  cases hi : s.inputs with
  | nil =>
    simp only [hi] at h ⊢
    cases hp : s.port with
    | nil => simp [hp] at h
    | cons b rest =>
      simp only [hp] at h
      by_cases hh : held s b = true
      · simp [hh] at h
      · simp [hh] at h; subst h
        cases s; simp_all [servePort, held, busy]
  | cons x xs =>
    cases x with
    | quiet =>
      simp only [hi] at h ⊢
      cases hp : s.port with
      | nil => simp [hp] at h
      | cons b rest =>
        simp only [hp] at h
        by_cases hh : held s b = true
        · simp [hh] at h
        · simp [hh] at h; subst h
          cases s; simp_all [servePort, held, busy]
    | access c =>
      simp only [hi] at h ⊢
      cases hp : s.port ++ [c] with
      | nil => simp at hp
      | cons b rest =>
        simp only [hp] at h
        by_cases hh : held s b = true
        · simp [hh] at h
        · simp [hh] at h; subst h
          cases s; simp_all [servePort, held, busy]
    | reset k => simp [hi] at h

/-- A cycle in which no access is performed and no hardware reset is asserted. -/
theorem hostPhase_noAccess (s : State) (h : performedIn s = none) (hr : resetIn s = false) :
    hostPhase s = { s with port := offered s, inputs := s.inputs.tail, response := none } := by
  unfold performedIn at h
  unfold offered at *
  unfold hostPhase
  unfold resetIn at hr
  cases hi : s.inputs with
  | nil =>
    simp only [hi] at h ⊢
    cases hp : s.port with
    | nil => cases s; simp_all [servePort]
    | cons b rest =>
      simp only [hp] at h
      by_cases hh : held s b = true
      · cases s; simp_all [servePort, held, busy]
      · simp [hh] at h
  | cons x xs =>
    cases x with
    | quiet =>
      simp only [hi] at h ⊢
      cases hp : s.port with
      | nil => cases s; simp_all [servePort]
      | cons b rest =>
        simp only [hp] at h
        by_cases hh : held s b = true
        · cases s; simp_all [servePort, held, busy]
        · simp [hh] at h
    | access c =>
      simp only [hi] at h ⊢
      cases hp : s.port ++ [c] with
      | nil => simp at hp
      | cons b rest =>
        simp only [hp] at h
        by_cases hh : held s b = true
        · cases s; simp_all [servePort, held, busy]
        · simp [hh] at h
    | reset k => simp [hi] at hr

/-- A cycle in which the hardware reset is asserted. -/
theorem hostPhase_reset (s : State) (hr : resetIn s = true) : ∃ k,
    hostPhase s = hardwareReset k { s with inputs := s.inputs.tail } := by
  unfold resetIn at hr
  unfold hostPhase
  cases hi : s.inputs with
  | nil => simp [hi] at hr
  | cons x xs =>
    cases x with
    | reset k => exact ⟨k, rfl⟩
    | quiet => simp [hi] at hr
    | access a => simp [hi] at hr

theorem resetIn_of_performed {s : State} {a : HostAccess} (h : performedIn s = some a) : resetIn s = false :=
  (hostPhase_performed s a h).2.2

/-- What the outside can do to a command in flight: abandon it, or leave the record, the operand registers and ERRCMD
as they are. -/
theorem hostPhase_busy (s : State) (r : InFlight) (hb : s.inFlight = some r) :
    (hostPhase s).inFlight = none ∨
      ((hostPhase s).inFlight = some r ∧ (hostPhase s).x = s.x ∧ (hostPhase s).errCmd = s.errCmd) := by
  cases hr : resetIn s with
  | true =>
    obtain ⟨k, hk⟩ := hostPhase_reset s hr
    left; rw [hk]; rfl
  | false =>
    cases hp : performedIn s with
    | none => right; rw [hostPhase_noAccess s hp hr]; exact ⟨hb, rfl, rfl⟩
    | some a =>
      obtain ⟨h1, h2, -⟩ := hostPhase_performed s a hp
      rw [h1]
      rcases perform_cases a { s with port := (offered s).tail, inputs := s.inputs.tail } with
        ⟨o, z, -, -, h⟩ | ⟨o, z, -, -, h⟩ | ⟨o, z, v, rfl, hacc, h⟩
      · right; rw [h]; exact ⟨hb, rfl, rfl⟩
      · right; rw [h]; exact ⟨hb, rfl, rfl⟩
      · rw [h]
        simp [held, busy, hb, hacc] at h2
        rcases writeWindow_cases { s with port := (offered s).tail, inputs := s.inputs.tail } o z v with
          ⟨hh, hw⟩ | ⟨hh, hw⟩ | ⟨hh, hw⟩ | ⟨hh, hw⟩ | ⟨hh, hw⟩
        · omega
        · subst hh; simp at h2
        · right; rw [hw]; exact ⟨hb, rfl, rfl⟩
        · rw [hw]
          rcases writeCtrl_cases (v.setWidth 32) { s with port := (offered s).tail, inputs := s.inputs.tail } with
            ⟨-, hc⟩ | ⟨-, hc⟩
          · left; rw [hc]; rfl
          · right; rw [hc]; exact ⟨hb, rfl, rfl⟩
        · right; rw [hw]; exact ⟨hb, rfl, rfl⟩

end Sys2Proof.Machine
end

