-- ==== Sys2Proof/Laws/Decode.lean ====
section
/-!
SUPPORT. Each field of a word put together from its fields is the field it was put together from, and what an
accepted word of each operand class decodes to.
-/

namespace Sys2Proof

@[simp] theorem widthOfCode_widthCode (w : Width) : widthOfCode (widthCode w) = w := by cases w <;> rfl

@[simp] theorem widthCode_widthOfCode (c : BitVec 2) : widthCode (widthOfCode c) = c := by
  revert c; decide

section PackR
variable (rs3 rs2 rs1 rd : Reg) (w : Width) (opc : BitVec 8)

/-- A format R word bit by bit (30_encoding.md R71). -/
theorem packR_getLsbD (i : Nat) : (packR rs3 rs2 rs1 rd w opc).getLsbD i =
    if i < 8 then opc.getLsbD i
    else if i - 8 < 2 then (widthCode w).getLsbD (i - 8)
    else if i - 8 - 2 < 4 then rd.getLsbD (i - 8 - 2)
    else if i - 8 - 2 - 4 < 4 then rs1.getLsbD (i - 8 - 2 - 4)
    else if i - 8 - 2 - 4 - 4 < 4 then rs2.getLsbD (i - 8 - 2 - 4 - 4)
    else if i - 8 - 2 - 4 - 4 - 4 < 4 then rs3.getLsbD (i - 8 - 2 - 4 - 4 - 4)
    else false := by
  change (0#6 ++ rs3 ++ rs2 ++ rs1 ++ rd ++ widthCode w ++ opc).getLsbD i = _
  simp only [BitVec.getLsbD_append, BitVec.getLsbD_zero]

@[simp] theorem opcField_packR : opcField (packR rs3 rs2 rs1 rd w opc) = opc := by
  ext i hi
  rw [opcField, BitVec.getElem_extractLsb', packR_getLsbD, if_pos (by omega)]
  simp [hi]

@[simp] theorem widthField_packR : widthField (packR rs3 rs2 rs1 rd w opc) = widthCode w := by
  ext i hi
  rw [widthField, BitVec.getElem_extractLsb', packR_getLsbD, if_neg (by omega), if_pos (by omega)]
  simp [show 8 + i - 8 = i by omega, hi]

@[simp] theorem rdField_packR : rdField (packR rs3 rs2 rs1 rd w opc) = rd := by
  ext i hi
  rw [rdField, BitVec.getElem_extractLsb', packR_getLsbD, if_neg (by omega), if_neg (by omega), if_pos (by omega)]
  simp [show 10 + i - 8 - 2 = i by omega, hi]

@[simp] theorem rs1Field_packR : rs1Field (packR rs3 rs2 rs1 rd w opc) = rs1 := by
  ext i hi
  rw [rs1Field, BitVec.getElem_extractLsb', packR_getLsbD, if_neg (by omega), if_neg (by omega), if_neg (by omega), if_pos (by omega)]
  simp [show 14 + i - 8 - 2 - 4 = i by omega, hi]

@[simp] theorem rs2Field_packR : rs2Field (packR rs3 rs2 rs1 rd w opc) = rs2 := by
  ext i hi
  rw [rs2Field, BitVec.getElem_extractLsb', packR_getLsbD, if_neg (by omega), if_neg (by omega), if_neg (by omega), if_neg (by omega), if_pos (by omega)]
  simp [show 18 + i - 8 - 2 - 4 - 4 = i by omega, hi]

@[simp] theorem rs3Field_packR : rs3Field (packR rs3 rs2 rs1 rd w opc) = rs3 := by
  ext i hi
  rw [rs3Field, BitVec.getElem_extractLsb', packR_getLsbD, if_neg (by omega), if_neg (by omega), if_neg (by omega), if_neg (by omega), if_neg (by omega), if_pos (by omega)]
  simp [show 22 + i - 8 - 2 - 4 - 4 - 4 = i by omega, hi]

@[simp] theorem rsvRField_packR : rsvRField (packR rs3 rs2 rs1 rd w opc) = 0 := by
  ext i hi
  rw [rsvRField, BitVec.getElem_extractLsb', packR_getLsbD, if_neg (by omega), if_neg (by omega), if_neg (by omega),
    if_neg (by omega), if_neg (by omega), if_neg (by omega)]
  simp

end PackR

section PackI
variable (imm : BitVec 16) (rd : Reg) (w : Width) (opc : BitVec 8)

/-- A format I word bit by bit (30_encoding.md R72). -/
theorem packI_getLsbD (i : Nat) : (packI imm rd w opc).getLsbD i =
    if i < 8 then opc.getLsbD i
    else if i - 8 < 2 then (widthCode w).getLsbD (i - 8)
    else if i - 8 - 2 < 4 then rd.getLsbD (i - 8 - 2)
    else if i - 8 - 2 - 4 < 2 then false
    else imm.getLsbD (i - 8 - 2 - 4 - 2) := by
  change (imm ++ 0#2 ++ rd ++ widthCode w ++ opc).getLsbD i = _
  simp only [BitVec.getLsbD_append, BitVec.getLsbD_zero]

@[simp] theorem opcField_packI : opcField (packI imm rd w opc) = opc := by
  ext i hi
  rw [opcField, BitVec.getElem_extractLsb', packI_getLsbD, if_pos (by omega)]
  simp [hi]

@[simp] theorem widthField_packI : widthField (packI imm rd w opc) = widthCode w := by
  ext i hi
  rw [widthField, BitVec.getElem_extractLsb', packI_getLsbD, if_neg (by omega), if_pos (by omega)]
  simp [show 8 + i - 8 = i by omega, hi]

@[simp] theorem rdField_packI : rdField (packI imm rd w opc) = rd := by
  ext i hi
  rw [rdField, BitVec.getElem_extractLsb', packI_getLsbD, if_neg (by omega), if_neg (by omega), if_pos (by omega)]
  simp [show 10 + i - 8 - 2 = i by omega, hi]

@[simp] theorem rsvIField_packI : rsvIField (packI imm rd w opc) = 0 := by
  ext i hi
  rw [rsvIField, BitVec.getElem_extractLsb', packI_getLsbD, if_neg (by omega), if_neg (by omega), if_neg (by omega),
    if_pos (by omega)]
  simp

@[simp] theorem immField_packI : immField (packI imm rd w opc) = imm := by
  ext i hi
  rw [immField, BitVec.getElem_extractLsb', packI_getLsbD, if_neg (by omega), if_neg (by omega), if_neg (by omega),
    if_neg (by omega)]
  simp [show 16 + i - 8 - 2 - 4 - 2 = i by omega, hi]

end PackI

/-! ## What an accepted word of each class decodes to, and which of its fields are 0 -/

theorem decodeU_ok {word : CmdWord} {mk : Width → Reg → Reg → Instr} {i : Instr} (h : decodeU word mk = .ok i) :
    rsvRField word = 0 ∧ rs2Field word = 0 ∧ rs3Field word = 0 ∧
      i = mk (widthOfCode (widthField word)) (rdField word) (rs1Field word) := by
  unfold decodeU at h
  split at h
  · cases h
  · split at h
    · cases h
    · simp_all

theorem decodeB_ok {word : CmdWord} {mk : Width → Reg → Reg → Reg → Instr} {i : Instr} (h : decodeB word mk = .ok i) :
    rsvRField word = 0 ∧ rs3Field word = 0 ∧
      i = mk (widthOfCode (widthField word)) (rdField word) (rs1Field word) (rs2Field word) := by
  unfold decodeB at h
  split at h
  · cases h
  · split at h
    · cases h
    · simp_all

theorem decodeT_ok {word : CmdWord} {mk : Width → Reg → Reg → Reg → Reg → Instr} {i : Instr}
    (h : decodeT word mk = .ok i) :
    rsvRField word = 0 ∧
      i = mk (widthOfCode (widthField word)) (rdField word) (rs1Field word) (rs2Field word) (rs3Field word) := by
  unfold decodeT at h
  split at h
  · cases h
  · simp_all

theorem decodeI_ok {word : CmdWord} {mk : Width → Reg → BitVec 16 → Instr} {i : Instr} (h : decodeI word mk = .ok i) :
    rsvIField word = 0 ∧ i = mk (widthOfCode (widthField word)) (rdField word) (immField word) := by
  unfold decodeI at h
  split at h
  · cases h
  · simp_all

end Sys2Proof
end

