-- ==== Sys2Proof/Laws/Exec.lean ====
section
/-!
SUPPORT. The meaning of every command through the one shared operation `runCommand`, and what one cycle can do.
-/

namespace Sys2Proof.Machine

/-- The rule that the meaning of a command evaluates. -/
def ruleOf (i : Instr) : Rule :=
  match i with
  | .mov _ _ _ => ruleMov
  | .li _ _ imm => ruleLi imm
  | .getbit _ _ _ _ => ruleGetbit
  | .setbit _ _ _ _ => ruleSetbit
  | .clrbit _ _ _ _ => ruleClrbit
  | .flipbit _ _ _ _ => ruleFlipbit
  | .popcnt _ _ _ => rulePopcnt
  | .clz _ _ _ => ruleClz
  | .ctz _ _ _ => ruleCtz
  | .bitlen _ _ _ => ruleBitlen
  | .lsb1 _ _ _ => ruleLsb1
  | .msb1 _ _ _ => ruleMsb1
  | .foldmsb _ _ _ => ruleFoldmsb
  | .foldlsb _ _ _ => ruleFoldlsb
  | .revbits _ _ _ => ruleRevbits
  | .revbytes _ _ _ => ruleRevbytes
  | .gray _ _ _ => ruleGray
  | .igray _ _ _ => ruleIgray
  | .mul _ _ _ _ => ruleMul
  | .mulh _ _ _ _ => ruleMulh
  | .mulhu _ _ _ _ => ruleMulhu
  | .mulc _ _ _ _ => ruleMulc
  | .mulcu _ _ _ _ => ruleMulcu
  | .div _ _ _ _ => ruleDiv
  | .divu _ _ _ _ => ruleDivu
  | .rem _ _ _ _ => ruleRem
  | .remu _ _ _ _ => ruleRemu
  | .mulmod _ _ _ _ _ => ruleMulmod
  | .powmod _ _ _ _ _ => rulePowmod

theorem exec_eq_runCommand (i : Instr) (s : State) : exec i s = runCommand i (ruleOf i) s := by
  cases i <;> rfl

theorem exec_cases (i : Instr) (s : State) :
    (∃ v, evaluate i (ruleOf i) (operandsFor i s) = .ok v ∧ exec i s = .next (complete (fieldsOf i).rd v s)) ∨
    (∃ code, evaluate i (ruleOf i) (operandsFor i s) = .error code ∧
      exec i s = .next (raiseError code (encode i) s)) := by
  rw [exec_eq_runCommand]
  exact runCommand_cases i (ruleOf i) s

/-- A command that has been issued raises no other error than these three (60_exceptions.md R216). -/
theorem evaluate_error (i : Instr) (o : Operands) (code : ErrorCode) (h : evaluate i (ruleOf i) o = .error code) :
    code = .range ∨ code = .divZero ∨ code = .overflow := by
  unfold evaluate at h
  split at h
  · simp at h
  · rename_i c hc
    simp at h
    subst h
    cases i <;> simp only [ruleOf] at hc <;> revert hc <;>
      simp only [ruleMov, ruleLi, rulePopcnt, ruleClz, ruleCtz, ruleBitlen, ruleLsb1, ruleMsb1, ruleFoldmsb, ruleFoldlsb,
        ruleRevbits, ruleRevbytes, ruleGray, ruleIgray, ruleMul, ruleMulh, ruleMulhu, ruleMulc, ruleMulcu, ruleDiv,
        ruleDivu, ruleRem, ruleRemu, ruleMulmod, rulePowmod, ruleGetbit, ruleSetbit, ruleClrbit, ruleFlipbit] <;>
      (try split) <;> (try split) <;> simp_all

/-- The outcomes of one cycle: nothing was in flight before it or the command was abandoned in it; the command counts
down; it ends; or its word is no command. -/
theorem step_cases (s : State) :
    (s.inFlight = none ∧ step s = .next (hostPhase s)) ∨
    ((hostPhase s).inFlight = none ∧ step s = .next (hostPhase s)) ∨
    (∃ r, s.inFlight ≠ none ∧ (hostPhase s).inFlight = some r ∧ 1 < r.remaining ∧
      step s = .next { hostPhase s with inFlight := some { r with remaining := r.remaining - 1 } }) ∨
    (∃ r i, s.inFlight ≠ none ∧ (hostPhase s).inFlight = some r ∧ r.remaining ≤ 1 ∧ decode r.word = .ok i ∧
      step s = exec i (hostPhase s)) ∨
    (∃ r e, s.inFlight ≠ none ∧ (hostPhase s).inFlight = some r ∧ r.remaining ≤ 1 ∧ decode r.word = .error e ∧
      step s = .fault .inFlightIllegal) := by
  by_cases hs : s.inFlight = none
  · exact .inl ⟨hs, by simp [step, engineEvent_idle s _ hs]⟩
  · cases hh : (hostPhase s).inFlight with
    | none => exact .inr (.inl ⟨rfl, by simp [step, engineEvent_abandoned s _ hh]⟩)
    | some r =>
      rcases engineEvent_busy s (hostPhase s) r hs hh with ⟨h1, h2⟩ | ⟨h1, i, hd, h2⟩ | ⟨h1, e, hd, h2⟩
      · exact .inr (.inr (.inl ⟨r, hs, rfl, h1, by simp [step, h2]⟩))
      · exact .inr (.inr (.inr (.inl ⟨r, i, hs, rfl, h1, hd, by simp [step, h2]⟩)))
      · exact .inr (.inr (.inr (.inr ⟨r, e, hs, rfl, h1, hd, by simp [step, h2]⟩)))

/-- A cycle whose access leaves the in-flight record alone: the engine then does nothing, counts the command down, or
ends it. -/
theorem step_of_hostPhase {s u : State} (h : hostPhase s = u) (hf : u.inFlight = s.inFlight) :
    (s.inFlight = none → step s = .next u) ∧
    (∀ r, s.inFlight = some r → 1 < r.remaining →
      step s = .next { u with inFlight := some { r with remaining := r.remaining - 1 } }) ∧
    (∀ r i, s.inFlight = some r → r.remaining ≤ 1 → decode r.word = .ok i → step s = exec i u) := by
  subst h
  refine ⟨fun hn => ?_, fun r hr h1 => ?_, fun r i hr h1 hd => ?_⟩
  · simp [step, engineEvent_idle s _ hn]
  · simp [step, engineEvent, busy, hf, hr, show ¬ r.remaining ≤ 1 by omega]
  · simp [step, engineEvent, busy, hf, hr, h1, hd]

end Sys2Proof.Machine
end

