-- ==== Sys2Proof/Laws/PerInstr.lean ====
section
/-!
SUPPORT. The family EncodedFields: what the encoder writes into the width and destination fields of a command, one
lemma for each command.
-/

namespace Sys2Proof.Laws.EncodedFields

/-- The W field of a command's word selects its width and the RD field names its destination (30_encoding.md R74,
R75). -/
def Statement (i : Instr) : Prop :=
  widthOfCode (widthField (encode i)) = (fieldsOf i).w ∧ rdField (encode i) = (fieldsOf i).rd

theorem mov (w : Width) (rd rs1 : Reg) : Statement (.mov w rd rs1) := by simp [Statement, encode, fieldsOf, fieldsU]

theorem li (w : Width) (rd : Reg) (imm : BitVec 16) : Statement (.li w rd imm) := by simp [Statement, encode, fieldsOf, fieldsI]

theorem getbit (w : Width) (rd rs1 rs2 : Reg) : Statement (.getbit w rd rs1 rs2) := by simp [Statement, encode, fieldsOf, fieldsIndex]

theorem setbit (w : Width) (rd rs1 rs2 : Reg) : Statement (.setbit w rd rs1 rs2) := by simp [Statement, encode, fieldsOf, fieldsIndex]

theorem clrbit (w : Width) (rd rs1 rs2 : Reg) : Statement (.clrbit w rd rs1 rs2) := by simp [Statement, encode, fieldsOf, fieldsIndex]

theorem flipbit (w : Width) (rd rs1 rs2 : Reg) : Statement (.flipbit w rd rs1 rs2) := by simp [Statement, encode, fieldsOf, fieldsIndex]

theorem popcnt (w : Width) (rd rs1 : Reg) : Statement (.popcnt w rd rs1) := by simp [Statement, encode, fieldsOf, fieldsU]

theorem clz (w : Width) (rd rs1 : Reg) : Statement (.clz w rd rs1) := by simp [Statement, encode, fieldsOf, fieldsU]

theorem ctz (w : Width) (rd rs1 : Reg) : Statement (.ctz w rd rs1) := by simp [Statement, encode, fieldsOf, fieldsU]

theorem bitlen (w : Width) (rd rs1 : Reg) : Statement (.bitlen w rd rs1) := by simp [Statement, encode, fieldsOf, fieldsU]

theorem lsb1 (w : Width) (rd rs1 : Reg) : Statement (.lsb1 w rd rs1) := by simp [Statement, encode, fieldsOf, fieldsU]

theorem msb1 (w : Width) (rd rs1 : Reg) : Statement (.msb1 w rd rs1) := by simp [Statement, encode, fieldsOf, fieldsU]

theorem foldmsb (w : Width) (rd rs1 : Reg) : Statement (.foldmsb w rd rs1) := by simp [Statement, encode, fieldsOf, fieldsU]

theorem foldlsb (w : Width) (rd rs1 : Reg) : Statement (.foldlsb w rd rs1) := by simp [Statement, encode, fieldsOf, fieldsU]

theorem revbits (w : Width) (rd rs1 : Reg) : Statement (.revbits w rd rs1) := by simp [Statement, encode, fieldsOf, fieldsU]

theorem revbytes (w : Width) (rd rs1 : Reg) : Statement (.revbytes w rd rs1) := by simp [Statement, encode, fieldsOf, fieldsU]

theorem gray (w : Width) (rd rs1 : Reg) : Statement (.gray w rd rs1) := by simp [Statement, encode, fieldsOf, fieldsU]

theorem igray (w : Width) (rd rs1 : Reg) : Statement (.igray w rd rs1) := by simp [Statement, encode, fieldsOf, fieldsU]

theorem mul (w : Width) (rd rs1 rs2 : Reg) : Statement (.mul w rd rs1 rs2) := by simp [Statement, encode, fieldsOf, fieldsB]

theorem mulh (w : Width) (rd rs1 rs2 : Reg) : Statement (.mulh w rd rs1 rs2) := by simp [Statement, encode, fieldsOf, fieldsB]

theorem mulhu (w : Width) (rd rs1 rs2 : Reg) : Statement (.mulhu w rd rs1 rs2) := by simp [Statement, encode, fieldsOf, fieldsB]

theorem mulc (w : Width) (rd rs1 rs2 : Reg) : Statement (.mulc w rd rs1 rs2) := by simp [Statement, encode, fieldsOf, fieldsB]

theorem mulcu (w : Width) (rd rs1 rs2 : Reg) : Statement (.mulcu w rd rs1 rs2) := by simp [Statement, encode, fieldsOf, fieldsB]

theorem div (w : Width) (rd rs1 rs2 : Reg) : Statement (.div w rd rs1 rs2) := by simp [Statement, encode, fieldsOf, fieldsB]

theorem divu (w : Width) (rd rs1 rs2 : Reg) : Statement (.divu w rd rs1 rs2) := by simp [Statement, encode, fieldsOf, fieldsB]

theorem rem (w : Width) (rd rs1 rs2 : Reg) : Statement (.rem w rd rs1 rs2) := by simp [Statement, encode, fieldsOf, fieldsB]

theorem remu (w : Width) (rd rs1 rs2 : Reg) : Statement (.remu w rd rs1 rs2) := by simp [Statement, encode, fieldsOf, fieldsB]

theorem mulmod (w : Width) (rd rs1 rs2 rs3 : Reg) : Statement (.mulmod w rd rs1 rs2 rs3) := by simp [Statement, encode, fieldsOf, fieldsT]

theorem powmod (w : Width) (rd rs1 rs2 rs3 : Reg) : Statement (.powmod w rd rs1 rs2 rs3) := by simp [Statement, encode, fieldsOf, fieldsT]

end Sys2Proof.Laws.EncodedFields
end

