-- ==== Sys2Proof/Machine/Assembler.lean ====
section
/-!
DEFINITION. The assembler syntax and the pseudo-instructions (30_encoding.md R84, R85). Nothing of the machine depends
on this file; what the spec does not say of white space and letter case is notes/assumptions/14.md.
-/

namespace Sys2Proof.Machine

/-- Why the assembler refuses a line (30_encoding.md R84). `sameRegister` is `neg` with xd = xs (R85). -/
inductive AsmError where
  | unknownMnemonic
  | badWidth
  | badRegister
  | badImmediate
  | badOperands
  | sameRegister
deriving DecidableEq, Repr

/-- An operand as written: `x<n>`, an integer, or text that is neither. -/
inductive AsmOperand where
  | reg (n : Nat)
  | imm (z : Int)
  | other
deriving DecidableEq, Repr

/-- How the operands of a mnemonic are laid out, by operand class (30_encoding.md R79, R84). -/
inductive AsmForm where
  | u (mk : Width → Reg → Reg → Instr)
  | b (mk : Width → Reg → Reg → Reg → Instr)
  | t (mk : Width → Reg → Reg → Reg → Reg → Instr)
  | i (mk : Width → Reg → BitVec 16 → Instr)

/-- A register outside x0 to x15 is refused (30_encoding.md R84). -/
def asmReg (o : AsmOperand) : Except AsmError Reg :=
  match o with
  | .reg n => if n < 16 then .ok (BitVec.ofNat 4 n) else .error .badRegister
  | _ => .error .badOperands

/-- An immediate in [-32768, 65535]: a negative one is encoded as itself plus 65536 (30_encoding.md R84). -/
def asmImm (o : AsmOperand) : Except AsmError (BitVec 16) :=
  match o with
  | .imm z => if -32768 ≤ z ∧ z ≤ 65535 then .ok (BitVec.ofInt 16 z) else .error .badImmediate
  | _ => .error .badOperands

/-- The suffix `.wN`; a missing one means `.w64` (30_encoding.md R84). -/
def asmWidth (suffix : Option (List Char)) : Except AsmError Width :=
  match suffix with
  | none => .ok .w64
  | some ['w', '8'] => .ok .w8
  | some ['w', '1', '6'] => .ok .w16
  | some ['w', '3', '2'] => .ok .w32
  | some ['w', '6', '4'] => .ok .w64
  | some _ => .error .badWidth

/-- The commands by their lower-case mnemonics (30_encoding.md R80, R84). -/
def asmForm (name : String) : Option AsmForm :=
  match name with
  | "mov" => some (.u .mov)
  | "li" => some (.i .li)
  | "getbit" => some (.b .getbit)
  | "setbit" => some (.b .setbit)
  | "clrbit" => some (.b .clrbit)
  | "flipbit" => some (.b .flipbit)
  | "popcnt" => some (.u .popcnt)
  | "clz" => some (.u .clz)
  | "ctz" => some (.u .ctz)
  | "bitlen" => some (.u .bitlen)
  | "lsb1" => some (.u .lsb1)
  | "msb1" => some (.u .msb1)
  | "foldmsb" => some (.u .foldmsb)
  | "foldlsb" => some (.u .foldlsb)
  | "revbits" => some (.u .revbits)
  | "revbytes" => some (.u .revbytes)
  | "gray" => some (.u .gray)
  | "igray" => some (.u .igray)
  | "mul" => some (.b .mul)
  | "mulh" => some (.b .mulh)
  | "mulhu" => some (.b .mulhu)
  | "mulc" => some (.b .mulc)
  | "mulcu" => some (.b .mulcu)
  | "div" => some (.b .div)
  | "divu" => some (.b .divu)
  | "rem" => some (.b .rem)
  | "remu" => some (.b .remu)
  | "mulmod" => some (.t .mulmod)
  | "powmod" => some (.t .powmod)
  | _ => none

/-- One command from its form, width and operands (30_encoding.md R84). -/
def asmCommand (form : AsmForm) (w : Width) (ops : List AsmOperand) : Except AsmError Instr := do
  match form, ops with
  | .u mk, [d, s1] => return mk w (← asmReg d) (← asmReg s1)
  | .b mk, [d, s1, s2] => return mk w (← asmReg d) (← asmReg s1) (← asmReg s2)
  | .t mk, [d, s1, s2, s3] => return mk w (← asmReg d) (← asmReg s1) (← asmReg s2) (← asmReg s3)
  | .i mk, [d, z] => return mk w (← asmReg d) (← asmImm z)
  | _, _ => throw .badOperands

/-- The pseudo-instructions and their expansions (30_encoding.md R85); `none` where the name is no pseudo-instruction. -/
def asmPseudo (name : String) (w : Width) (ops : List AsmOperand) : Option (Except AsmError (List Instr)) :=
  match name, ops with
  | "clr", [d] => some do return [.li w (← asmReg d) 0]
  | "mv", [d, s] => some do return [.mov w (← asmReg d) (← asmReg s)]
  | "trunc", [d, s] => some do return [.mov w (← asmReg d) (← asmReg s)]
  | "testbit", [d, s, x] => some do return [.getbit w (← asmReg d) (← asmReg s) (← asmReg x)]
  | "sqrmod", [d, s, m] => some do return [.mulmod w (← asmReg d) (← asmReg s) (← asmReg s) (← asmReg m)]
  | "neg", [d, s] => some do
      let rd ← asmReg d
      let rs ← asmReg s
      if rd = rs then throw .sameRegister
      return [.li w rd 0xFFFF#16, .mul w rd rs rd]
  | "isolate_lsb", [d, s] => some do return [.lsb1 w (← asmReg d) (← asmReg s)]
  | _, _ => none

/-- The commands of one line, from its mnemonic, its width and its operands (30_encoding.md R84, R85). -/
def asmLine (name : String) (w : Width) (ops : List AsmOperand) : Except AsmError (List Instr) :=
  match asmForm name, asmPseudo name w ops with
  | some form, _ => do return [← asmCommand form w ops]
  | none, some r => r
  | none, none => .error .unknownMnemonic

/-! ## Reading text -/

/-- Cut a text at every `c`. -/
def splitText (c : Char) : List Char → List (List Char)
  | [] => [[]]
  | d :: rest =>
    match splitText c rest with
    | [] => [[d]]
    | piece :: pieces => if d = c then [] :: piece :: pieces else (d :: piece) :: pieces

/-- A space, a tab or a carriage return. -/
def isBlank (c : Char) : Bool := c == ' ' || c == '\t' || c == '\r'

/-- A text without the blanks at its two ends. -/
def trimText (t : List Char) : List Char := ((t.dropWhile isBlank).reverse.dropWhile isBlank).reverse

/-- The value of a digit, decimal or hexadecimal. -/
def digitValue (c : Char) : Option Nat :=
  if '0' ≤ c ∧ c ≤ '9' then some (c.toNat - '0'.toNat)
  else if 'a' ≤ c ∧ c ≤ 'f' then some (c.toNat - 'a'.toNat + 10)
  else if 'A' ≤ c ∧ c ≤ 'F' then some (c.toNat - 'A'.toNat + 10)
  else none

/-- Digits in a base, most significant first, after those already read. -/
def digitsFrom (base : Nat) : List Char → Nat → Option Nat
  | [], acc => some acc
  | c :: rest, acc =>
    match digitValue c with
    | some d => if d < base then digitsFrom base rest (acc * base + d) else none
    | none => none

/-- A number of one digit or more. -/
def readDigits (base : Nat) (t : List Char) : Option Nat := if t = [] then none else digitsFrom base t 0

/-- A decimal or `0x` hexadecimal number (30_encoding.md R84). -/
def readNat (t : List Char) : Option Nat :=
  match t with
  | '0' :: 'x' :: rest => readDigits 16 rest
  | _ => readDigits 10 t

/-- One operand (30_encoding.md R84). DESIGN CHOICE: leading zeros are accepted in a register number (`x01` is x1) and in
an immediate, notes/assumptions/14.md. -/
def readOperand (t : List Char) : AsmOperand :=
  match t with
  | 'x' :: rest => match readDigits 10 rest with | some n => .reg n | none => .other
  | '-' :: rest => match readNat rest with | some n => .imm (-(n : Int)) | none => .other
  | _ => match readNat t with | some n => .imm n | none => .other

/-- The operands of a line, separated by commas. -/
def readOperands (t : List Char) : List AsmOperand :=
  if trimText t = [] then [] else (splitText ',' t).map fun piece => readOperand (trimText piece)

/-- One line of text: a `;` starts a comment; a line with no mnemonic gives no command (30_encoding.md R84). -/
def assembleLine (line : List Char) : Except AsmError (List Instr) :=
  let code := trimText (line.takeWhile fun c => c != ';')
  let head := code.takeWhile fun c => !isBlank c
  let ops := readOperands (code.dropWhile fun c => !isBlank c)
  match splitText '.' head with
  | [[]] => .ok []
  | [name] => do asmLine (String.ofList name) (← asmWidth none) ops
  | [name, suffix] => do asmLine (String.ofList name) (← asmWidth (some suffix)) ops
  | _ => .error .unknownMnemonic

/-- The command words of a text, one line after the other (30_encoding.md R84, R85). -/
def assembleLines : List (List Char) → Except AsmError (List CmdWord)
  | [] => .ok []
  | line :: rest => do
    let first ← assembleLine line
    let more ← assembleLines rest
    return first.map encode ++ more

/-- The assembler: from a text to its command words (30_encoding.md R84, R85). -/
def assemble (text : String) : Except AsmError (List CmdWord) := assembleLines (splitText '\n' text.toList)

end Sys2Proof.Machine
end

