-- ==== Sys2Proof/Tests/Slice0.lean ====
section
/-!
SUPPORT. The model's own tests, each on one word, one command or one cycle, with the expected values taken from the
spec (mostly 95_test_vectors.md); and for every statement with hypotheses a state and operands that meet them.
-/

namespace Sys2Proof.Tests

-- One theorem after the other: a kernel evaluation in each would otherwise hold a thread each.
set_option Elab.async false

open Sys2Proof.Machine Sys2Proof.Claims

/-! ## Helpers -/

/-- The outcome is a next state with this property. -/
def nextWith (o : Machine.Outcome) (p : State → Bool) : Bool :=
  match o with
  | .next t => p t
  | .fault _ => false
  | .refused _ => false

theorem exists_of_nextWith {o : Machine.Outcome} {p : State → Bool} (h : nextWith o p = true) :
    ∃ t, o = .next t ∧ p t = true := by
  cases o with
  | next t => exact ⟨t, rfl, h⟩
  | fault f => cases h
  | refused f => cases h

/-- Right after reset, with three source registers and the destination x5 written. -/
def start (a b c : Word) : State := writeReg (writeReg (writeReg (writeReg State.reset 1 a) 2 b) 3 c) 5 0xDEAD#64

/-- One step with the command `i` placed: x5 gets `v`, DONE is 1, ERR and BUSY are 0. -/
def gives (i : Instr) (a b c v : Word) : Bool :=
  nextWith (step ((start a b c).withFetchWord 32 (encode i).toNat)) fun t =>
    readReg t 5 == v && t.done && !t.err && !busy t

/-- One step with the command `i` placed: the error `code`, and x5 keeps its value. -/
def errs (i : Instr) (a b c : Word) (code : ErrorCode) : Bool :=
  nextWith (step ((start a b c).withFetchWord 32 (encode i).toNat)) fun t =>
    readReg t 5 == 0xDEAD#64 && t.err && t.errCode == code && t.errCmd == encode i && !t.done && !busy t

/-- `s` with one host access at the port and nothing more from the outside. -/
def offer (a : HostAccess) (s : State) : State := { s with port := [a], inputs := [] }

/-- A cycle that performs access `a` in `s` answers `resp`, and the state after it has the property. -/
def answers (a : HostAccess) (s : State) (resp : HostResponse) (p : State → Bool) : Bool :=
  nextWith (step (offer a s)) fun t => t.response == some resp && p t

/-- `s` with the command word in flight, its operands latched now, and `n` cycles left. -/
def fly (word : CmdWord) (i : Instr) (n : Nat) (s : State) : State :=
  { s with inFlight := some { word := word, operands := latch i s, remaining := n } }

/-! ## Well-formedness: each check of 30_encoding.md R81 refuses a word (the words of 95_test_vectors.md section 2) -/

theorem test_wf_refuses_undefined_opcode : opcodeDefined 0x00000000#32 = false ∧ wellFormed 0x00000000#32 = false := by
  decide +kernel

theorem test_wf_refuses_undefined_opcode_ff :
    opcodeDefined 0xFFFFFFFF#32 = false ∧ wellFormed 0xFFFFFFFF#32 = false := by decide +kernel

theorem test_wf_refuses_reserved_bit_31 : reservedZero 0x80000001#32 = false ∧ wellFormed 0x80000001#32 = false := by
  decide +kernel

theorem test_wf_refuses_reserved_bit_14_of_li :
    reservedZero 0x00054702#32 = false ∧ wellFormed 0x00054702#32 = false := by decide +kernel

theorem test_wf_refuses_unused_rs2 : unusedZero 0x00044B14#32 = false ∧ wellFormed 0x00044B14#32 = false := by
  decide +kernel

theorem test_wf_refuses_unused_rs3 : unusedZero 0x014C8720#32 = false ∧ wellFormed 0x014C8720#32 = false := by
  decide +kernel

theorem test_wf_accepts_a_command : wellFormed 0x00C85331#32 = true := by decide +kernel

/-! ## Decoding: words written out field by field (30_encoding.md R71, R72, R80) -/

theorem test_decode_mov : decode 0b000000_0000_0000_0010_0001_11_00000001#32 = .ok (.mov .w64 1 2) := by decide +kernel

theorem test_decode_li : decode 0b1111111111111111_00_0001_11_00000010#32 = .ok (.li .w64 1 0xFFFF#16) := by decide +kernel

theorem test_decode_getbit : decode 0b000000_0000_0011_0001_1001_11_00010000#32 = .ok (.getbit .w64 9 1 3) := by decide +kernel

theorem test_decode_setbit : decode 0b000000_0000_0010_0001_0001_00_00010001#32 = .ok (.setbit .w8 1 1 2) := by decide +kernel

theorem test_decode_clrbit : decode 0b000000_0000_1101_0110_1001_01_00010010#32 = .ok (.clrbit .w16 9 6 13) := by decide +kernel

theorem test_decode_flipbit : decode 0b000000_0000_1000_1101_1110_10_00010011#32 = .ok (.flipbit .w32 14 13 8) := by decide +kernel

theorem test_decode_popcnt : decode 0b000000_0000_0000_0001_0010_11_00010100#32 = .ok (.popcnt .w64 2 1) := by decide +kernel

theorem test_decode_clz : decode 0b000000_0000_0000_0100_0011_00_00010101#32 = .ok (.clz .w8 3 4) := by decide +kernel

theorem test_decode_ctz : decode 0b000000_0000_0000_0010_1101_01_00010110#32 = .ok (.ctz .w16 13 2) := by decide +kernel

theorem test_decode_bitlen : decode 0b000000_0000_0000_1111_1111_01_00010111#32 = .ok (.bitlen .w16 15 15) := by decide +kernel

theorem test_decode_lsb1 : decode 0b000000_0000_0000_0000_0111_11_00011000#32 = .ok (.lsb1 .w64 7 0) := by decide +kernel

theorem test_decode_msb1 : decode 0b000000_0000_0000_0111_1100_00_00011001#32 = .ok (.msb1 .w8 12 7) := by decide +kernel

theorem test_decode_foldmsb : decode 0b000000_0000_0000_1110_0001_01_00011010#32 = .ok (.foldmsb .w16 1 14) := by decide +kernel

theorem test_decode_foldlsb : decode 0b000000_0000_0000_0101_0110_10_00011011#32 = .ok (.foldlsb .w32 6 5) := by decide +kernel

theorem test_decode_revbits : decode 0b000000_0000_0000_1100_1011_11_00011100#32 = .ok (.revbits .w64 11 12) := by decide +kernel

theorem test_decode_revbytes : decode 0b000000_0000_0000_0111_0110_10_00011101#32 = .ok (.revbytes .w32 6 7) := by decide +kernel

theorem test_decode_gray : decode 0b000000_0000_0000_1010_0101_01_00011110#32 = .ok (.gray .w16 5 10) := by decide +kernel

theorem test_decode_igray : decode 0b000000_0000_0000_0001_1010_10_00011111#32 = .ok (.igray .w32 10 1) := by decide +kernel

theorem test_decode_mul : decode 0b000000_0000_0110_0101_0100_10_00100000#32 = .ok (.mul .w32 4 5 6) := by decide +kernel

theorem test_decode_mulh : decode 0b000000_0000_0010_1111_0100_00_00100001#32 = .ok (.mulh .w8 4 15 2) := by decide +kernel

theorem test_decode_mulhu : decode 0b000000_0000_1101_0110_1001_01_00100010#32 = .ok (.mulhu .w16 9 6 13) := by decide +kernel

theorem test_decode_mulc : decode 0b000000_0000_1000_1101_1110_10_00100011#32 = .ok (.mulc .w32 14 13 8) := by decide +kernel

theorem test_decode_mulcu : decode 0b000000_0000_0011_0100_0011_11_00100100#32 = .ok (.mulcu .w64 3 4 3) := by decide +kernel

theorem test_decode_div : decode 0b000000_0000_1110_1011_1000_00_00100101#32 = .ok (.div .w8 8 11 14) := by decide +kernel

theorem test_decode_divu : decode 0b000000_0000_0111_0110_0101_10_00100110#32 = .ok (.divu .w32 5 6 7) := by decide +kernel

theorem test_decode_rem : decode 0b000000_0000_0010_0001_0000_01_00100111#32 = .ok (.rem .w16 0 1 2) := by decide +kernel

theorem test_decode_remu : decode 0b000000_0000_1111_0000_0111_11_00101000#32 = .ok (.remu .w64 7 0 15) := by decide +kernel

theorem test_decode_mulmod : decode 0b000000_0011_0100_0100_0101_11_00110000#32 = .ok (.mulmod .w64 5 4 4 3) := by decide +kernel

theorem test_decode_powmod : decode 0b000000_0011_0010_0001_0100_11_00110001#32 = .ok (.powmod .w64 4 1 2 3) := by decide +kernel

theorem test_decode_rejects_by_name :
    decode 0x00000032#32 = .error .undefinedOpcode ∧ decode 0x04C85331#32 = .error .reservedBits ∧
      decode 0x00404B14#32 = .error .unusedField ∧ decodeBytes [0x14#8, 0x4B#8, 0x00#8] = .error .notOneWord := by
  decide +kernel

theorem test_table_word_is_read_little_endian : decodeTableWord 32 0x00004B14 = some (.popcnt .w64 2 1) := by
  decide +kernel

/-! ## Commands: two vectors each (95_test_vectors.md sections 3 to 6) -/

theorem test_mov_truncates : gives (.mov .w16 5 1) 0x1122334455667788 0x0 0x0 0x7788 = true := by decide +kernel

theorem test_li_sign_extends : gives (.li .w64 5 0x8000#16) 0 0 0 0xFFFFFFFFFFFF8000#64 = true := by decide +kernel

theorem test_li_truncates : gives (.li .w8 5 0x1234#16) 0 0 0 0x34#64 = true := by decide +kernel

theorem test_getbit_top : gives (.getbit .w64 5 1 2) 0x8000000000000000 0x3F 0x0 0x1 = true := by decide +kernel

theorem test_getbit_range : errs (.getbit .w8 5 1 2) 0xB4 0x100 0x0 .range = true := by decide +kernel

theorem test_setbit_top : gives (.setbit .w16 5 1 2) 0x0 0xF 0x0 0x8000 = true := by decide +kernel

theorem test_setbit_range : errs (.setbit .w16 5 1 2) 0x1234 0x10 0x0 .range = true := by decide +kernel

theorem test_clrbit : gives (.clrbit .w8 5 1 2) 0xB4 0x7 0x0 0x34 = true := by decide +kernel

theorem test_clrbit_range : errs (.clrbit .w32 5 1 2) 0x1 0x20 0x0 .range = true := by decide +kernel

theorem test_flipbit : gives (.flipbit .w8 5 1 2) 0xB4 0x4 0x0 0xA4 = true := by decide +kernel

theorem test_flipbit_range : errs (.flipbit .w64 5 1 2) 0x1 0x40 0x0 .range = true := by decide +kernel

theorem test_popcnt : gives (.popcnt .w32 5 1) 0x12345678 0x0 0x0 0xD = true := by decide +kernel

theorem test_popcnt_ones : gives (.popcnt .w64 5 1) 0xFFFFFFFFFFFFFFFF 0x0 0x0 0x40 = true := by decide +kernel

theorem test_clz : gives (.clz .w16 5 1) 0x1234 0x0 0x0 0x3 = true := by decide +kernel

theorem test_clz_zero : gives (.clz .w8 5 1) 0x0 0x0 0x0 0x8 = true := by decide +kernel

theorem test_ctz : gives (.ctz .w8 5 1) 0xB4 0x0 0x0 0x2 = true := by decide +kernel

theorem test_ctz_zero : gives (.ctz .w8 5 1) 0x0 0x0 0x0 0x8 = true := by decide +kernel

theorem test_bitlen : gives (.bitlen .w64 5 1) 0x123456789ABCDEF 0x0 0x0 0x39 = true := by decide +kernel

theorem test_bitlen_zero : gives (.bitlen .w8 5 1) 0x0 0x0 0x0 0x0 = true := by decide +kernel

theorem test_lsb1 : gives (.lsb1 .w16 5 1) 0x1234 0x0 0x0 0x4 = true := by decide +kernel

theorem test_lsb1_top : gives (.lsb1 .w32 5 1) 0x80000000 0x0 0x0 0x80000000 = true := by decide +kernel

theorem test_msb1 : gives (.msb1 .w32 5 1) 0x12345678 0x0 0x0 0x10000000 = true := by decide +kernel

theorem test_msb1_zero : gives (.msb1 .w8 5 1) 0x0 0x0 0x0 0x0 = true := by decide +kernel

theorem test_foldmsb : gives (.foldmsb .w16 5 1) 0x1234 0x0 0x0 0x1FFF = true := by decide +kernel

theorem test_foldmsb_negative : gives (.foldmsb .w8 5 1) 0xB4 0x0 0x0 0xFF = true := by decide +kernel

theorem test_foldlsb : gives (.foldlsb .w32 5 1) 0x12345678 0x0 0x0 0xFFFFFFF8 = true := by decide +kernel

theorem test_foldlsb_zero : gives (.foldlsb .w8 5 1) 0x0 0x0 0x0 0x0 = true := by decide +kernel

theorem test_revbits : gives (.revbits .w32 5 1) 0x12345678 0x0 0x0 0x1E6A2C48 = true := by decide +kernel

theorem test_revbits_w8 : gives (.revbits .w8 5 1) 0xB4 0x0 0x0 0x2D = true := by decide +kernel

theorem test_revbytes : gives (.revbytes .w64 5 1) 0x123456789ABCDEF 0x0 0x0 0xEFCDAB8967452301 = true := by decide +kernel

theorem test_revbytes_w16 : gives (.revbytes .w16 5 1) 0x1234 0x0 0x0 0x3412 = true := by decide +kernel

theorem test_gray : gives (.gray .w32 5 1) 0x12345678 0x0 0x0 0x1B2E7D44 = true := by decide +kernel

theorem test_gray_ones : gives (.gray .w8 5 1) 0xFF 0x0 0x0 0x80 = true := by decide +kernel

theorem test_igray : gives (.igray .w64 5 1) 0x123456789ABCDEF 0x0 0x0 0x1C279BAF132894A = true := by decide +kernel

theorem test_igray_top : gives (.igray .w8 5 1) 0x80 0x0 0x0 0xFF = true := by decide +kernel

theorem test_mul : gives (.mul .w8 5 1 2) 0xF0 0x9 0x0 0x70 = true := by decide +kernel

theorem test_mul_wraps : gives (.mul .w64 5 1 2) 0xFFFFFFFF 0xFFFFFFFF 0x0 0xFFFFFFFE00000001 = true := by decide +kernel

theorem test_mulh : gives (.mulh .w8 5 1 2) 0xF0 0x9 0x0 0xFF = true := by decide +kernel

theorem test_mulh_least : gives (.mulh .w8 5 1 2) 0x80 0x80 0x0 0x40 = true := by decide +kernel

theorem test_mulhu : gives (.mulhu .w8 5 1 2) 0xF0 0x9 0x0 0x8 = true := by decide +kernel

theorem test_mulhu_ones : gives (.mulhu .w32 5 1 2) 0xFFFFFFFF 0xFFFFFFFF 0x0 0xFFFFFFFE = true := by decide +kernel

theorem test_mulc_least_fits : gives (.mulc .w8 5 1 2) 0xF0 0x8 0x0 0x80 = true := by decide +kernel

theorem test_mulc_overflow : errs (.mulc .w8 5 1 2) 0x10 0x8 0x0 .overflow = true := by decide +kernel

theorem test_mulcu_fits : gives (.mulcu .w16 5 1 2) 0xFF 0x101 0x0 0xFFFF = true := by decide +kernel

theorem test_mulcu_overflow : errs (.mulcu .w16 5 1 2) 0x100 0x100 0x0 .overflow = true := by decide +kernel

theorem test_div_truncates : gives (.div .w8 5 1 2) 0xF9 0x2 0x0 0xFD = true := by decide +kernel

theorem test_div_overflow : errs (.div .w16 5 1 2) 0x8000 0xFFFF 0x0 .overflow = true := by decide +kernel

theorem test_divu : gives (.divu .w8 5 1 2) 0xF9 0x2 0x0 0x7C = true := by decide +kernel

theorem test_divu_zero : errs (.divu .w8 5 1 2) 0x5 0x0 0x0 .divZero = true := by decide +kernel

theorem test_rem_sign_of_dividend : gives (.rem .w32 5 1 2) 0xFFFFFFF9 0x2 0x0 0xFFFFFFFF = true := by decide +kernel

theorem test_rem_of_least_by_minus_one : gives (.rem .w8 5 1 2) 0x80 0xFF 0x0 0x0 = true := by decide +kernel

theorem test_remu : gives (.remu .w8 5 1 2) 0x7 0xFE 0x0 0x7 = true := by decide +kernel

theorem test_remu_zero : errs (.remu .w8 5 1 2) 0x80 0x0 0x0 .divZero = true := by decide +kernel

theorem test_mulmod : gives (.mulmod .w64 5 1 2 3) 0x123456789ABCDEF 0xFEDCBA987654321 0xFFFFFFFFFFFFFFC5 0x2650B76B7E00028B = true := by decide +kernel

theorem test_mulmod_zero : errs (.mulmod .w8 5 1 2 3) 0x7 0x9 0x0 .divZero = true := by decide +kernel

theorem test_powmod : gives (.powmod .w64 5 1 2 3) 0x4 0xD 0x1F1 0x1BD = true := by decide +kernel

theorem test_powmod_modulus_one : gives (.powmod .w32 5 1 2 3) 0x0 0x0 0x1 0x0 = true := by decide +kernel

/-! ## The register window, resets and the interrupt output (95_test_vectors.md section 7) -/

theorem test_read_id : answers (.read 0x90#8 .b4) State.reset ⟨false, 0x46500100#64⟩ (fun _ => true) = true := by
  decide +kernel

theorem test_read_status_after_reset :
    answers (.read 0x84#8 .b4) State.reset ⟨false, 0#64⟩ (fun _ => true) = true := by decide +kernel

theorem test_read_of_unwritten_register_is_marked :
    stepReadsUnwritten (offer (.read 0x08#8 .b8) State.reset) = true ∧
      stepReadsUnwritten (offer (.read 0x08#8 .b8) (start 1 2 3)) = false := by decide +kernel

theorem test_write_high_half :
    answers (.write 0x14#8 .b4 0xAAAABBBB#64) (start 0 0x1122334455667788 0) ⟨false, 0⟩
      (fun t => readReg t 2 == 0xAAAABBBB55667788#64) = true := by decide +kernel

theorem test_read_high_half :
    answers (.read 0x14#8 .b4) (start 0 0x1122334455667788 0) ⟨false, 0x11223344#64⟩ (fun _ => true) = true := by
  decide +kernel

theorem test_misaligned_read : answers (.read 0x04#8 .b8) (start 1 2 3) ⟨true, 0⟩ (fun _ => true) = true := by
  decide +kernel

theorem test_short_write :
    answers (.write 0x00#8 .b2 0xFFFF#64) (start 1 2 3) ⟨true, 0⟩ (fun t => readReg t 0 == 0) = true := by decide +kernel

theorem test_clear_err_keeps_done_and_drop :
    answers (statusWrite 0x4#64) { State.reset with done := true, err := true, drop := true, errCode := .divZero }
      ⟨false, 0⟩ (fun t => statusWord t == 0x0000000A#32) = true := by decide +kernel

theorem test_status_word_of_an_error :
    statusWord { State.reset with done := true, err := true, drop := true, errCode := .divZero } = 0x0000030E#32 := by
  decide +kernel

theorem test_cmd_is_dropped_while_err :
    answers (cmdWrite 0x4B14#64) { start 1 2 3 with err := true, errCode := .range } ⟨false, 0⟩
      (fun t => t.drop && !busy t && readReg t 2 == 2) = true := by decide +kernel

theorem test_irq : irq { State.reset with done := true, ieDone := true, ieErr := true } = true ∧
    irq { State.reset with done := true, ieErr := true } = false := by decide +kernel

theorem test_soft_reset :
    answers (ctrlWrite 0x80000003#64)
      { start 1 2 3 with done := true, err := true, errCode := .range, ieDone := true, ieErr := true, errCmd := 0x10#32 }
      ⟨false, 0⟩ (fun t => statusWord t == 0 && ctrlWord t == 0 && t.errCmd == 0 && readReg t 2 == 2 && !irq t) = true := by
  decide +kernel

theorem test_illegal_word_at_issue :
    answers (cmdWrite 0#64) { start 1 2 3 with done := true } ⟨false, 0⟩
      (fun t => statusWord t == 0x00000106#32 && t.errCmd == 0) = true := by decide +kernel

/-- A set wins over a clear of the same cycle (60_exceptions.md R219): STATUS is cleared while the command ends. -/
theorem test_done_is_set_over_a_clear :
    nextWith (step (offer (statusWrite 0xE#64) (fly 0x4B14#32 (.popcnt .w64 2 1) 1 (start 7 0 0))))
      (fun t => t.done && readReg t 2 == 3) = true := by decide +kernel

/-! ## The assembler (30_encoding.md R84 to R86) -/

theorem test_assemble_worked_encodings :
    assemble "popcnt.w64 x2, x1\nli.w64 x1, -1 ; all ones\npowmod x4, x1, x2, x3\ndivu.w32 x5, x6, x7" =
      .ok [0x00004B14#32, 0xFFFF0702#32, 0x00C85331#32, 0x001D9626#32] := by decide +kernel

theorem test_assemble_pseudo_instructions :
    assemble "neg.w64 x2, x1\nsqrmod.w64 x5, x4, x3" = .ok [0xFFFF0B02#32, 0x00084B20#32, 0x00D11730#32] := by
  decide +kernel

theorem test_assemble_refuses :
    assemble "li x1, 65536" = .error .badImmediate ∧ assemble "mov x16, x0" = .error .badRegister ∧
      assemble "add x1, x2, x3" = .error .unknownMnemonic := by decide +kernel

/-! ## The statements' hypotheses are met: encoding and operand fetch -/

theorem witness_LegalWordIsTheOnlyWord : decode 0x00004B14#32 = .ok (.popcnt .w64 2 1) := by decide +kernel

theorem witness_DecodeFollowsTheOpcodeMap_row :
    (⟨"POPCNT", .u, 0x00000014#32, 0xFFFC00FF#32⟩ : OpcodeRow) ∈ opcodeMap ∧
      0x00004B14#32 &&& 0xFFFC00FF#32 = 0x00000014#32 := by decide +kernel

theorem witness_DecodeFollowsTheOpcodeMap_noRow :
    (∀ row ∈ opcodeMap, 0x00000000#32 &&& row.mask ≠ row.matchWord) ∧
      (∀ row ∈ opcodeMap, 0x04C85331#32 &&& row.mask ≠ row.matchWord) := by decide +kernel

/-- One word on each side of every opcode bound of the statement. -/
theorem witness_LatchReadsTheSourcesOfTheWord :
    decode 0x00008701#32 = .ok (.mov .w64 1 2) ∧ decode 0xFFFF0702#32 = .ok (.li .w64 1 0xFFFF#16) ∧
      decode 0x000C6710#32 = .ok (.getbit .w64 9 1 3) ∧ decode 0x003C1313#32 = .ok (.flipbit .w64 4 0 15) ∧
      decode 0x00004B14#32 = .ok (.popcnt .w64 2 1) ∧ decode 0x0000691F#32 = .ok (.igray .w16 10 1) ∧
      decode 0x00195220#32 = .ok (.mul .w32 4 5 6) ∧ decode 0x00195228#32 = .ok (.remu .w32 4 5 6) ∧
      decode 0x00D11730#32 = .ok (.mulmod .w64 5 4 4 3) := by decide +kernel

/-! ## The statements' hypotheses are met: results and errors, at the bounds of each clause -/

/-- The bit indices 7 and 8 at width 8, for GETBIT, SETBIT, CLRBIT and FLIPBIT. -/
theorem witness_bitIndex_bounds :
    bitIndex (start 0xB4 7 0) 2 < widthBits .w8 ∧ widthBits .w8 ≤ bitIndex (start 0xB4 8 0) 2 := by decide +kernel

theorem witness_operand_is_zero : opA (start 0x100 0 0) 1 .w8 = 0 := by decide +kernel

/-- A top bit at 0 and at 7, for CLZ, BITLEN, MSB1 and FOLDMSB. -/
theorem witness_isTop_bounds : IsTop (opA (start 0x01 0 0) 1 .w8) 0 ∧ IsTop (opA (start 0x80 0 0) 1 .w8) 7 := by
  have above : ∀ (a : BitVec 8) (k : Nat), (∀ j, j < 8 → k < j → a.getLsbD j = false) → ∀ j, k < j → a.getLsbD j = false := by
    intro a k h j hj
    by_cases h8 : j < 8
    · exact h j h8 hj
    · exact BitVec.getLsbD_of_ge a j (by omega)
  refine ⟨⟨by decide +kernel, above _ 0 (by decide +kernel)⟩, ⟨by decide +kernel, above _ 7 (by decide +kernel)⟩⟩

/-- A low bit at 0 and at 7, for CTZ, LSB1 and FOLDLSB. -/
theorem witness_isLow_bounds : IsLow (opA (start 0xFF 0 0) 1 .w8) 0 ∧ IsLow (opA (start 0x80 0 0) 1 .w8) 7 := by
  refine ⟨⟨by decide +kernel, fun j hj => by omega⟩, ⟨by decide +kernel, by decide +kernel⟩⟩

/-- Signed products -128, 127, -129 and 128 at width 8. -/
theorem witness_MulcChecksTheSignedProduct :
    (opA (start 0xF0 8 0) 1 .w8).toInt * (opB (start 0xF0 8 0) 2 .w8).toInt = -(2 ^ (widthBits .w8 - 1)) ∧
      (opA (start 0x7F 1 0) 1 .w8).toInt * (opB (start 0x7F 1 0) 2 .w8).toInt = 2 ^ (widthBits .w8 - 1) - 1 ∧
      (opA (start 0x2B 0xFD 0) 1 .w8).toInt * (opB (start 0x2B 0xFD 0) 2 .w8).toInt = -(2 ^ (widthBits .w8 - 1)) - 1 ∧
      (opA (start 0x10 8 0) 1 .w8).toInt * (opB (start 0x10 8 0) 2 .w8).toInt = 2 ^ (widthBits .w8 - 1) := by
  decide +kernel

/-- Unsigned products 255 and 256 at width 8. -/
theorem witness_MulcuChecksTheUnsignedProduct :
    (opA (start 0xFF 1 0) 1 .w8).toNat * (opB (start 0xFF 1 0) 2 .w8).toNat < 2 ^ widthBits .w8 ∧
      2 ^ widthBits .w8 ≤ (opA (start 0x10 0x10 0) 1 .w8).toNat * (opB (start 0x10 0x10 0) 2 .w8).toNat := by
  decide +kernel

/-- A divisor 0 (with the least dividend), the one quotient that does not fit, and its two neighbours. -/
theorem witness_DivTruncatesTowardZero :
    (opB (start 0x80 0 0) 2 .w8).toInt = 0 ∧
      ((opA (start 0x80 0xFF 0) 1 .w8).toInt = -(2 ^ (widthBits .w8 - 1)) ∧ (opB (start 0x80 0xFF 0) 2 .w8).toInt = -1) ∧
      ((opA (start 0x81 0xFF 0) 1 .w8).toInt ≠ -(2 ^ (widthBits .w8 - 1)) ∧ (opB (start 0x81 0xFF 0) 2 .w8).toInt ≠ 0) ∧
      ((opB (start 0x80 1 0) 2 .w8).toInt ≠ -1 ∧ (opB (start 0x80 1 0) 2 .w8).toInt ≠ 0) := by decide +kernel

theorem witness_RemHasTheSignOfTheDividend :
    (opB (start 0x80 0 0) 2 .w8).toInt = 0 ∧ (opB (start 0x80 0xFF 0) 2 .w8).toInt ≠ 0 := by decide +kernel

theorem witness_DivuAndRemuDivideUnsigned :
    (opB (start 5 0 0) 2 .w8).toNat = 0 ∧ (opB (start 5 1 0) 2 .w8).toNat ≠ 0 ∧
      (opB (start 5 0xFF 0) 2 .w8).toNat ≠ 0 := by decide +kernel

/-- The moduli 0, 1 and 255, for MULMOD and POWMOD. -/
theorem witness_modulus_bounds :
    (opC (start 7 9 0) 3 .w8).toNat = 0 ∧ (opC (start 7 9 1) 3 .w8).toNat ≠ 0 ∧ (opC (start 7 9 0xFF) 3 .w8).toNat ≠ 0 := by
  decide +kernel

theorem witness_BitPrimitiveLaws : (0x01#(widthBits .w8) : BitVec (widthBits .w8)) ≠ 0 ∧ 0x80#(widthBits .w8) ≠ 0 := by
  decide +kernel

/-! ## The statements' hypotheses are met: cycles -/

theorem test_error_codes :
    codeBits .illegal = 1#4 ∧ codeBits .range = 2#4 ∧ codeBits .divZero = 3#4 ∧ codeBits .overflow = 4#4 := by
  decide +kernel

/-- POPCNT in flight with `n` cycles left; its result for x2 is 3. -/
def flying (n : Nat) : State := fly 0x4B14#32 (.popcnt .w64 2 1) n (start 7 0 0)

/-- GETBIT in flight in its last cycle, with an index out of range. -/
def failing : State := fly 0x000C6710#32 (.getbit .w64 9 1 3) 1 (start 7 0 64)

theorem flying_inFlight (n : Nat) :
    (flying n).inFlight = some { word := 0x4B14#32, operands := latch (.popcnt .w64 2 1) (start 7 0 0), remaining := n } :=
  rfl

theorem decode_popcnt_word : decode 0x4B14#32 = .ok (.popcnt .w64 2 1) := by decide +kernel

theorem flying_coherent (n : Nat) (hn : 1 ≤ n) : Coherent (flying n) where
  errNotBusy h := by cases h
  codeWithErr := ⟨fun _ => rfl, fun _ => rfl⟩
  record r h := by
    rw [flying_inFlight] at h
    cases h
    exact ⟨.popcnt .w64 2 1, decode_popcnt_word, rfl, hn⟩

theorem witness_OutcomeIsFixedByWordAndOperands :
    ∃ r, (flying 1).inFlight = some r ∧ ({ flying 1 with done := true } : State).inFlight = some r := ⟨_, rfl, rfl⟩

/-- The last cycle, the cycle before it, and a last cycle with a STATUS read at the port. -/
theorem witness_StepRunsTheCommandThatEnds :
    decode 0x4B14#32 = .ok (.popcnt .w64 2 1) ∧ (flying 1).port = [] ∧ (flying 1).inputs = [] ∧
      (flying 2).inFlight ≠ none ∧
      (hostPhase (offer (.read 0x84#8 .b4) (flying 1))).inFlight = (offer (.read 0x84#8 .b4) (flying 1)).inFlight := by
  decide +kernel

theorem witness_CmdWriteIssuesTheCommand :
    performedIn (offer (cmdWrite 0x4B14#64) (start 7 0 0)) = some (cmdWrite 0x4B14#64) ∧
      (offer (cmdWrite 0x4B14#64) (start 7 0 0)).err = false ∧
      decode ((0x4B14#64).setWidth 32) = .ok (.popcnt .w64 2 1) := by decide +kernel

theorem witness_IllegalWordIsRecordedAtIssue :
    performedIn (offer (cmdWrite 0x80000001#64) (start 7 0 0)) = some (cmdWrite 0x80000001#64) ∧
      (offer (cmdWrite 0x80000001#64) (start 7 0 0)).err = false ∧
      wellFormed ((0x80000001#64).setWidth 32) = false := by decide +kernel

theorem witness_CmdWriteIsDroppedWhileErr :
    performedIn (offer (cmdWrite 0x4B14#64) { start 7 0 0 with err := true, errCode := .range }) = some (cmdWrite 0x4B14#64) ∧
      ({ start 7 0 0 with err := true, errCode := .range } : State).err = true := by
  decide +kernel

theorem witness_StatusAndCtrlWritesWhileIdle :
    performedIn (offer (statusWrite 0xE#64) (start 7 0 0)) = some (statusWrite 0xE#64) ∧
      performedIn (offer (ctrlWrite 0x7FFFFFFF#64) (start 7 0 0)) = some (ctrlWrite 0x7FFFFFFF#64) ∧
      (0x7FFFFFFF#64).getLsbD 31 = false ∧ (offer (statusWrite 0xE#64) (start 7 0 0)).inFlight = none := by decide +kernel

/-- Both ways a command ends in a cycle that writes STATUS, for values that clear one field, several and none. -/
theorem witness_SetWinsOverClearInOneCycle :
    (∀ a ∈ [statusWrite 0x0#64, statusWrite 0x2#64, statusWrite 0x4#64, statusWrite 0x8#64, statusWrite 0xE#64],
      performedIn (offer a (flying 1)) = some a ∧ performedIn (offer a failing) = some a) ∧
      decode 0x4B14#32 = .ok (.popcnt .w64 2 1) ∧ decode 0x000C6710#32 = .ok (.getbit .w64 9 1 3) := by
  decide +kernel

/-- A soft reset of an idle unit, and in the cycle in which a command would end. -/
theorem witness_SoftResetAbandonsTheCommand :
    performedIn (offer (ctrlWrite 0x80000000#64) (start 7 0 0)) = some (ctrlWrite 0x80000000#64) ∧
      performedIn (offer (ctrlWrite 0x80000000#64) (flying 1)) = some (ctrlWrite 0x80000000#64) ∧
      (0x80000000#64).getLsbD 31 = true := by decide +kernel

/-- A read at every kind of accepted offset, the first and the last operand offset among them; those at 0x80 and above
also while BUSY is 1, before and in the last cycle. -/
theorem witness_ReadsReturnTheirRegisterAndChangeNothing :
    (∀ p ∈ [((0x00#8 : BitVec 8), AccessSize.b8), (0x78#8, .b8), (0x7C#8, .b4), (0x80#8, .b4), (0x84#8, .b4), (0x88#8, .b4),
        (0x8C#8, .b4), (0x90#8, .b4)],
      performedIn (offer (.read p.1 p.2) (start 7 0 0)) = some (.read p.1 p.2) ∧ accepted p.1 p.2 = true) ∧
    (∀ off ∈ [(0x80#8 : BitVec 8), 0x84#8, 0x88#8, 0x8C#8, 0x90#8],
      performedIn (offer (.read off .b4) (flying 2)) = some (.read off .b4) ∧
        performedIn (offer (.read off .b4) (flying 1)) = some (.read off .b4)) := by decide +kernel

/-- One access for each reason to refuse it, read or write, while BUSY is 0 and while it is 1. -/
theorem witness_RefusedAccessesChangeNothing :
    (∀ a ∈ [HostAccess.read 0x00#8 .b1, .write 0x00#8 .b2 0, .read 0x04#8 .b8, .write 0x80#8 .b8 0, .read 0x94#8 .b4],
      performedIn (offer a (start 7 0 0)) = some a ∧ performedIn (offer a (flying 2)) = some a) ∧ (0x04#8).toNat % byteCount .b8 ≠ 0 := by decide +kernel

/-- The first and the last accepted operand access of each size, low half and high half. -/
theorem witness_operand_offsets :
    ∀ p ∈ [((0x00#8 : BitVec 8), AccessSize.b8), (0x78#8, .b8), (0x00#8, .b4), (0x7C#8, .b4)],
      accepted p.1 p.2 = true ∧ p.1.toNat < 0x80 ∧
        performedIn (offer (.write p.1 p.2 0x1122334455667788#64) (start 7 0 0)) =
          some (.write p.1 p.2 0x1122334455667788#64) ∧
        (offer (.write p.1 p.2 0x1122334455667788#64) (start 7 0 0)).inFlight = none := by decide +kernel

/-- Held: a read and a write of an operand register and a write of CMD. Not held: a refused access, a STATUS
write, a CTRL write, a read of CMD. -/
theorem witness_BusyHoldsOperandAndCmdAccesses :
    (∀ a ∈ [HostAccess.read 0x00#8 .b8, .write 0x7C#8 .b4 0, .write 0x80#8 .b4 0],
      offered (offer a (flying 2)) = [a] ∧ held (flying 2) a = true) ∧
    (∀ a ∈ [HostAccess.read 0x00#8 .b1, statusWrite 0xE#64, ctrlWrite 0x3#64, .read 0x80#8 .b4],
      offered (offer a (flying 2)) = [a] ∧ held (flying 2) a = false) ∧ (flying 2).inFlight ≠ none ∧
    accepted 0x00#8 .b8 = true ∧ accepted 0x7C#8 .b4 = true ∧ accepted 0x80#8 .b4 = true ∧ accepted 0x00#8 .b1 = false := by
  decide +kernel

theorem witness_HardwareResetLeavesTheResetState :
    resetIn { flying 2 with inputs := [.reset true] } = true ∧ resetIn { flying 2 with inputs := [.reset false] } = true := by
  decide +kernel

theorem witness_StepKeepsTheInvariant : Coherent (flying 1) ∧ ∃ t, step (flying 1) = .next t := by
  refine ⟨flying_coherent 1 (by omega), ?_⟩
  obtain ⟨t, h, -⟩ := exists_of_nextWith (o := step (flying 1)) (p := fun t => t.done) (by decide +kernel)
  exact ⟨t, h⟩

theorem witness_NoStopFromTheInvariant : Coherent (flying 1) := flying_coherent 1 (by omega)

theorem witness_EveryCommandEnds : Coherent (flying 3) ∧ (flying 3).inFlight ≠ none :=
  ⟨flying_coherent 3 (by omega), by decide +kernel⟩

/-- A read held with three cycles to go, while the outside offers two more accesses. -/
def holding : State :=
  { flying 3 with
    port := [.read 0x10#8 .b8]
    inputs := [.access (ctrlWrite 0x80000000#64), .quiet, .access (.read 0x18#8 .b8), .quiet, .reset true] }

theorem holding_coherent : Coherent holding where
  errNotBusy := (flying_coherent 3 (by omega)).errNotBusy
  codeWithErr := (flying_coherent 3 (by omega)).codeWithErr
  record r h := by
    obtain ⟨i, h1, h2, h3⟩ := (flying_coherent 3 (by omega)).record r h
    exact ⟨i, h1, h2.trans (latch_congr rfl i), h3⟩

theorem witness_HeldAccessIsPerformed :
    Coherent holding ∧ holding.inFlight = (flying 3).inFlight ∧
      offered holding = [.read 0x10#8 .b8, ctrlWrite 0x80000000#64] ∧ held holding (.read 0x10#8 .b8) = true ∧
      ∀ keep, Input.reset keep ∉ holding.inputs.take (3 + 1) :=
  ⟨holding_coherent, rfl, by decide +kernel, by decide +kernel, by decide +kernel⟩

/-- Writes to ERRCMD and ID, while BUSY is 0, while it is 1 and in a command's last cycle. -/
theorem witness_IgnoredWritesChangeNothing :
    ∀ off ∈ [(0x8C#8 : BitVec 8), 0x90#8], ∀ s ∈ [start 7 0 0, flying 2, flying 1],
      performedIn (offer (.write off .b4 0x12345678#64) s) = some (.write off .b4 0x12345678#64) := by decide +kernel

/-- Every status bit set. -/
def stuck : State := { start 7 0 0 with done := true, err := true, drop := true, errCode := .range, errCmd := 0x10#32 }

theorem witness_StatusBitsAreSticky :
    ∃ t, step (offer (statusWrite 0xE#64) stuck) = .next t ∧
      (stuck.done && stuck.err && stuck.drop && !t.done && !t.err && !t.drop) = true :=
  exists_of_nextWith (p := fun t => stuck.done && stuck.err && stuck.drop && !t.done && !t.err && !t.drop)
    (by decide +kernel)

/-- ERRCMD changes by a failing command, by an illegal word and by a soft reset. -/
theorem witness_ErrcmdChangesOnlyByErrorOrReset :
    (∃ t, step failing = .next t ∧ (t.errCmd != failing.errCmd) = true) ∧
      (∃ t, step (offer (cmdWrite 0x3#64) (start 7 0 0)) = .next t ∧ (t.errCmd != (start 7 0 0).errCmd) = true) ∧
      (∃ t, step (offer (ctrlWrite 0x80000000#64) stuck) = .next t ∧ (t.errCmd != stuck.errCmd) = true) :=
  ⟨exists_of_nextWith (p := fun t => t.errCmd != failing.errCmd) (by decide +kernel),
    exists_of_nextWith (p := fun t => t.errCmd != (start 7 0 0).errCmd) (by decide +kernel),
    exists_of_nextWith (p := fun t => t.errCmd != stuck.errCmd) (by decide +kernel)⟩

/-- x2 changes by a host write and by the end of a command, and x1 by a hardware reset. -/
theorem witness_RegistersChangeOnlyByWriteOrCompletion :
    (∃ t, step (offer (.write 0x10#8 .b8 0x9#64) (start 7 0 0)) = .next t ∧ (operandReg t 2 != operandReg (start 7 0 0) 2) = true) ∧
      (∃ t, step (flying 1) = .next t ∧ (operandReg t 2 != operandReg (flying 1) 2) = true) ∧
      (∃ t, step { flying 2 with inputs := [.reset false] } = .next t ∧ (operandReg t 1 != operandReg (flying 2) 1) = true) :=
  ⟨exists_of_nextWith (p := fun t => operandReg t 2 != operandReg (start 7 0 0) 2) (by decide +kernel),
    exists_of_nextWith (p := fun t => operandReg t 2 != operandReg (flying 1) 2) (by decide +kernel),
    exists_of_nextWith (p := fun t => operandReg t 1 != operandReg (flying 2) 1) (by decide +kernel)⟩

end Sys2Proof.Tests
end

/-!
PROOFS. The frame of a command (00_scope.md R10, 60_exceptions.md R215): what either of its two ends leaves
unchanged, and that the destination it writes is the RD field of its word.
-/

namespace Sys2Proof.Machine

open Sys2Proof.Laws

/-- The family EncodedFields, collected over all commands (30_encoding.md R74, R75). -/
theorem encodedFields_statement (i : Instr) : EncodedFields.Statement i := by
  cases i with
  | mov => exact EncodedFields.mov ..
  | li => exact EncodedFields.li ..
  | getbit => exact EncodedFields.getbit ..
  | setbit => exact EncodedFields.setbit ..
  | clrbit => exact EncodedFields.clrbit ..
  | flipbit => exact EncodedFields.flipbit ..
  | popcnt => exact EncodedFields.popcnt ..
  | clz => exact EncodedFields.clz ..
  | ctz => exact EncodedFields.ctz ..
  | bitlen => exact EncodedFields.bitlen ..
  | lsb1 => exact EncodedFields.lsb1 ..
  | msb1 => exact EncodedFields.msb1 ..
  | foldmsb => exact EncodedFields.foldmsb ..
  | foldlsb => exact EncodedFields.foldlsb ..
  | revbits => exact EncodedFields.revbits ..
  | revbytes => exact EncodedFields.revbytes ..
  | gray => exact EncodedFields.gray ..
  | igray => exact EncodedFields.igray ..
  | mul => exact EncodedFields.mul ..
  | mulh => exact EncodedFields.mulh ..
  | mulhu => exact EncodedFields.mulhu ..
  | mulc => exact EncodedFields.mulc ..
  | mulcu => exact EncodedFields.mulcu ..
  | div => exact EncodedFields.div ..
  | divu => exact EncodedFields.divu ..
  | rem => exact EncodedFields.rem ..
  | remu => exact EncodedFields.remu ..
  | mulmod => exact EncodedFields.mulmod ..
  | powmod => exact EncodedFields.powmod ..

@[simp] theorem rdField_encode (i : Instr) : rdField (encode i) = (fieldsOf i).rd := (encodedFields_statement i).2

@[simp] theorem isWritten_complete_same (rd : Reg) (v : Word) (s : State) : isWritten (complete rd v s) rd = true := by
  simp [isWritten, operandReg_complete_same]

theorem operandReg_raiseError (code : ErrorCode) (word : CmdWord) (s : State) (q : Reg) :
    operandReg (raiseError code word s) q = operandReg s q := operandReg_congr (raiseError_x code word s) q

/-- An error at the end of a command is one that ERRCODE shows (60_exceptions.md R211). -/
theorem evaluate_error_ne_none {i : Instr} {o : Operands} {code : ErrorCode}
    (h : evaluate i (ruleOf i) o = .error code) : code ≠ .none := by
  rcases evaluate_error i o code h with rfl | rfl | rfl <;> decide

/-- Settles O36, by the two ends of a command: `complete` writes the destination and DONE, `raiseError` the error
fields. -/
theorem commandFrame : Obligations.CommandFrame := by
  unfold Obligations.CommandFrame
  intro i s
  rw [show (encode i).extractLsb' 10 4 = (fieldsOf i).rd from rdField_encode i]
  rcases exec_cases i s with ⟨v, -, hexec⟩ | ⟨code, herr, hexec⟩
  · have hframe (q : Reg) (hq : q ≠ (fieldsOf i).rd) := operandReg_complete_ne (fieldsOf i).rd q v s hq
    exact ⟨_, hexec, hframe, by simp⟩
  · have hcode := evaluate_error_ne_none herr
    exact ⟨_, hexec, fun q _ => operandReg_raiseError code (encode i) s q, by simp [hcode]⟩

end Sys2Proof.Machine

/-!
PROOFS. A legal command word is put together from its own fields, so it is the word of the command that it decodes to
(30_encoding.md R81, notes/assumptions/7.md).
-/

namespace Sys2Proof

/-- A format R word with RSV 0 is put together from its fields (30_encoding.md R71). -/
theorem packR_fields {word : CmdWord} (h : rsvRField word = 0) :
    packR (rs3Field word) (rs2Field word) (rs1Field word) (rdField word) (widthOfCode (widthField word))
      (opcField word) = word := by
  unfold packR
  rw [widthCode_widthOfCode, show 0#6 = rsvRField word from h.symm]
  unfold rsvRField rs3Field rs2Field rs1Field rdField widthField opcField
  iterate 6 rw [BitVec.extractLsb'_append_extractLsb'_eq_extractLsb' (by rfl)]
  exact BitVec.extractLsb'_eq_self

/-- A format I word with bits 15:14 at 0 is put together from its fields (30_encoding.md R72). -/
theorem packI_fields {word : CmdWord} (h : rsvIField word = 0) :
    packI (immField word) (rdField word) (widthOfCode (widthField word)) (opcField word) = word := by
  unfold packI
  rw [widthCode_widthOfCode, show 0#2 = rsvIField word from h.symm]
  unfold rsvIField immField rdField widthField opcField
  iterate 4 rw [BitVec.extractLsb'_append_extractLsb'_eq_extractLsb' (by rfl)]
  exact BitVec.extractLsb'_eq_self

section Classes
variable {word : CmdWord} {i : Instr} {opc : BitVec 8}

theorem encode_of_decodeU {mk : Width → Reg → Reg → Instr} (hopc : opcField word = opc) (h : decodeU word mk = .ok i)
    (hmk : ∀ w rd rs1, encode (mk w rd rs1) = packR 0 0 rs1 rd w opc) : encode i = word := by
  obtain ⟨hrsv, hrs2, hrs3, rfl⟩ := decodeU_ok h
  have hpack := packR_fields hrsv
  rwa [hrs2, hrs3, hopc, ← hmk] at hpack

theorem encode_of_decodeB {mk : Width → Reg → Reg → Reg → Instr} (hopc : opcField word = opc)
    (h : decodeB word mk = .ok i) (hmk : ∀ w rd rs1 rs2, encode (mk w rd rs1 rs2) = packR 0 rs2 rs1 rd w opc) :
    encode i = word := by
  obtain ⟨hrsv, hrs3, rfl⟩ := decodeB_ok h
  have hpack := packR_fields hrsv
  rwa [hrs3, hopc, ← hmk] at hpack

theorem encode_of_decodeT {mk : Width → Reg → Reg → Reg → Reg → Instr} (hopc : opcField word = opc)
    (h : decodeT word mk = .ok i)
    (hmk : ∀ w rd rs1 rs2 rs3, encode (mk w rd rs1 rs2 rs3) = packR rs3 rs2 rs1 rd w opc) : encode i = word := by
  obtain ⟨hrsv, rfl⟩ := decodeT_ok h
  have hpack := packR_fields hrsv
  rwa [hopc, ← hmk] at hpack

theorem encode_of_decodeI {mk : Width → Reg → BitVec 16 → Instr} (hopc : opcField word = opc)
    (h : decodeI word mk = .ok i) (hmk : ∀ w rd imm, encode (mk w rd imm) = packI imm rd w opc) : encode i = word := by
  obtain ⟨hrsv, rfl⟩ := decodeI_ok h
  have hpack := packI_fields hrsv
  rwa [hopc, ← hmk] at hpack

end Classes

/-- The decoder is strict: the word of the command it answers is the word it was given (30_encoding.md R81). -/
theorem encode_of_decode {word : CmdWord} {i : Instr} (h : decode word = .ok i) : encode i = word := by
  unfold decode at h
  split at h
  case h_1 | h_7 | h_8 | h_9 | h_10 | h_11 | h_12 | h_13 | h_14 | h_15 | h_16 | h_17 | h_18 =>
    exact encode_of_decodeU ‹_› h fun _ _ _ => rfl
  case h_2 => exact encode_of_decodeI ‹_› h fun _ _ _ => rfl
  case h_28 | h_29 => exact encode_of_decodeT ‹_› h fun _ _ _ _ _ => rfl
  case h_30 => cases h
  all_goals exact encode_of_decodeB ‹_› h fun _ _ _ _ => rfl

/-- The destination of a command is the RD field of its word (30_encoding.md R75). -/
theorem rdField_of_decode {word : CmdWord} {i : Instr} (h : decode word = .ok i) : (fieldsOf i).rd = rdField word := by
  rw [← Machine.rdField_encode, encode_of_decode h]

end Sys2Proof

/-!
PROOFS. One cycle, said once: the outside's part by the access performed in it (`HostEffect`), and the whole step by
what the engine then does (`StepEffect`). What every step keeps is read off these two.
-/

namespace Sys2Proof.Machine

open Sys2Proof.Claims

/-! ## Which accesses are performed -/

/-- From offset 0x80 on only 4-byte accesses are accepted (20_memory.md R57). -/
theorem size_eq_b4_of_accepted {off : BitVec 8} {size : AccessSize} (hacc : accepted off size = true)
    (hoff : ¬ off.toNat < 0x80) : size = .b4 := by
  cases size with
  | b4 => rfl
  | b1 | b2 => cases hacc
  | b8 => exact absurd (of_decide_eq_true (Bool.and_eq_true_iff.mp hacc).2) hoff

/-- An accepted write at or below CMD is performed only while nothing is in flight (70_reset_and_hazards.md R251). -/
theorem idle_of_write {s : State} {off : BitVec 8} {size : AccessSize} {v : Word}
    (hp : performedIn s = some (.write off size v)) (hacc : accepted off size = true) (hoff : off.toNat ≤ 0x80) :
    s.inFlight = none := by
  have hheld := (hostPhase_performed s _ hp).2.1
  simpa [held, busy, hacc, hoff] using hheld

theorem idle_of_cmdWrite {s : State} {v : Word} (hp : performedIn s = some (cmdWrite v)) : s.inFlight = none :=
  idle_of_write hp rfl (by decide)

theorem regAt_toNat {off : BitVec 8} (hoff : off.toNat < 0x80) : (regAt off).toNat = off.toNat / 8 := by
  rw [regAt, BitVec.toNat_ofNat]
  omega

/-! ## What an accepted write does -/

/-- No write reads the response of the cycle before. -/
theorem writeWindow_response (s : State) (off : BitVec 8) (size : AccessSize) (v : Word) (resp : Option HostResponse) :
    { writeWindow s off size v with response := resp } = writeWindow { s with response := resp } off size v := by
  unfold writeWindow writeOperandWindow issueOrDrop writeCtrl
  repeat' split
  all_goals rfl

section Writes
variable {s : State} {off : BitVec 8} {size : AccessSize} {v : Word}

theorem hostPhase_write (hp : performedIn s = some (.write off size v)) (hacc : accepted off size = true) :
    hostPhase s = writeWindow (answered s ⟨false, 0⟩) off size v := by
  rw [(hostPhase_performed s _ hp).1, perform, if_pos hacc, writeWindow_response]
  rfl

theorem clearStatus_eq_clearedBy (v : Word) (s : State) : clearStatus (v.setWidth 32) s = clearedBy v s := by
  simp [clearStatus, clearedBy, Bool.and_comm]

theorem setEnables_eq_enabledBy (v : Word) (s : State) : setEnables (v.setWidth 32) s = enabledBy v s := by
  simp [setEnables, enabledBy]

theorem hostPhase_cmdWrite (hp : performedIn s = some (cmdWrite v)) :
    hostPhase s = issueOrDrop (v.setWidth 32) (answered s ⟨false, 0⟩) := hostPhase_write hp rfl

theorem hostPhase_statusWrite (hp : performedIn s = some (statusWrite v)) :
    hostPhase s = clearedBy v (answered s ⟨false, 0⟩) :=
  (hostPhase_write hp rfl).trans (clearStatus_eq_clearedBy v _)

theorem hostPhase_ctrlWrite (hp : performedIn s = some (ctrlWrite v)) :
    hostPhase s = if v.getLsbD 31 then softReset (answered s ⟨false, 0⟩) else enabledBy v (answered s ⟨false, 0⟩) := by
  have hw : hostPhase s = writeCtrl (v.setWidth 32) (answered s ⟨false, 0⟩) := hostPhase_write hp rfl
  simpa [writeCtrl, setEnables_eq_enabledBy] using hw

end Writes

/-! ## The outside's part of a cycle -/

/-- What the outside's part of the cycle that begins in `s` can lead to. -/
inductive HostEffect (s : State) : State → Prop where
  /-- The hardware reset is asserted (70_reset_and_hazards.md R241). -/
  | reset (keep : Bool) (hr : resetIn s = true) : HostEffect s (hardwareReset keep { s with inputs := s.inputs.tail })
  /-- No access, a held one, a refused one, a read or an ignored write: only the port moves. -/
  | portOnly (port : List HostAccess) (resp : Option HostResponse) :
    HostEffect s { s with port := port, inputs := s.inputs.tail, response := resp }
  /-- A write to an operand register (20_memory.md R55). -/
  | operandWrite (off : BitVec 8) (size : AccessSize) (v : Word) (new : OperandReg)
    (hp : performedIn s = some (.write off size v)) (hacc : accepted off size = true) (hoff : off.toNat < 0x80)
    (hidle : s.inFlight = none) : HostEffect s (setOperandReg (answered s ⟨false, 0⟩) (regAt off) new)
  /-- A command word discarded because ERR = 1 (10_state.md R29). -/
  | drop (v : Word) (hp : performedIn s = some (cmdWrite v)) (hidle : s.inFlight = none) (herr : s.err = true) :
    HostEffect s (dropWord (answered s ⟨false, 0⟩))
  /-- A command issued (70_reset_and_hazards.md R250). -/
  | issue (v : Word) (i : Instr) (hp : performedIn s = some (cmdWrite v)) (hidle : s.inFlight = none)
    (herr : s.err = false) (hd : decode (v.setWidth 32) = .ok i) :
    HostEffect s (issue i (v.setWidth 32) (answered s ⟨false, 0⟩))
  /-- An illegal word recorded (60_exceptions.md R216). -/
  | illegal (v : Word) (hp : performedIn s = some (cmdWrite v)) (hidle : s.inFlight = none) :
    HostEffect s (raiseError .illegal (v.setWidth 32) (answered s ⟨false, 0⟩))
  /-- A STATUS write (10_state.md R25). -/
  | clear (v : Word) (hp : performedIn s = some (statusWrite v)) : HostEffect s (clearedBy v (answered s ⟨false, 0⟩))
  /-- A CTRL write that sets the enables (10_state.md R31). -/
  | enable (v : Word) (hp : performedIn s = some (ctrlWrite v)) : HostEffect s (enabledBy v (answered s ⟨false, 0⟩))
  /-- A soft reset (70_reset_and_hazards.md R243). -/
  | softReset (hsoft : SoftResetIn s) : HostEffect s (softReset (answered s ⟨false, 0⟩))

theorem hostEffect_cmdWrite {s : State} {v : Word} (hp : performedIn s = some (cmdWrite v)) :
    HostEffect s (hostPhase s) := by
  have hidle := idle_of_cmdWrite hp
  rw [hostPhase_cmdWrite hp]
  rcases issueOrDrop_cases (v.setWidth 32) (answered s ⟨false, 0⟩) with
    ⟨herr, h⟩ | ⟨herr, i, hd, h⟩ | ⟨-, -, -, h⟩ <;> rw [h]
  · exact .drop v hp hidle herr
  · exact .issue v i hp hidle herr hd
  · exact .illegal v hp hidle

theorem hostEffect_ctrlWrite {s : State} {v : Word} (hp : performedIn s = some (ctrlWrite v)) :
    HostEffect s (hostPhase s) := by
  rw [hostPhase_ctrlWrite hp]
  split
  next h31 => exact .softReset ⟨v, hp, h31⟩
  next => exact .enable v hp

theorem hostEffect_write {s : State} {off : BitVec 8} {size : AccessSize} {v : Word}
    (hp : performedIn s = some (.write off size v)) (hacc : accepted off size = true) :
    HostEffect s (hostPhase s) := by
  by_cases hoff : off.toNat < 0x80
  · have hw : writeWindow (answered s ⟨false, 0⟩) off size v = writeOperandWindow (answered s ⟨false, 0⟩) off size v :=
      if_pos hoff
    obtain ⟨new, hnew⟩ := writeOperandWindow_cases (answered s ⟨false, 0⟩) off size v
    rw [hostPhase_write hp hacc, hw, hnew]
    exact .operandWrite off size v new hp hacc hoff (idle_of_write hp hacc (by omega))
  · obtain rfl := size_eq_b4_of_accepted hacc hoff
    rcases writeWindow_cases (answered s ⟨false, 0⟩) off .b4 v with
      ⟨h, -⟩ | ⟨rfl, -⟩ | ⟨rfl, -⟩ | ⟨rfl, -⟩ | ⟨-, h⟩
    · exact absurd h hoff
    · exact hostEffect_cmdWrite hp
    · rw [hostPhase_statusWrite hp]
      exact .clear v hp
    · exact hostEffect_ctrlWrite hp
    · rw [hostPhase_write hp hacc, h]
      exact .portOnly _ _

theorem hostPhase_effect (s : State) : HostEffect s (hostPhase s) := by
  cases hr : resetIn s with
  | true =>
    obtain ⟨keep, h⟩ := hostPhase_reset s hr
    rw [h]
    exact .reset keep hr
  | false =>
    cases hp : performedIn s with
    | none =>
      rw [hostPhase_noAccess s hp hr]
      exact .portOnly _ _
    | some a =>
      rcases perform_cases a { s with port := (offered s).tail, inputs := s.inputs.tail } with
        ⟨_, _, -, -, h⟩ | ⟨_, _, -, -, h⟩ | ⟨off, size, v, rfl, hacc, -⟩
      · rw [(hostPhase_performed s a hp).1, h]
        exact .portOnly _ _
      · rw [(hostPhase_performed s a hp).1, h]
        exact .portOnly _ _
      · exact hostEffect_write hp hacc

/-! ## The whole step -/

/-- What a step from `s` that answers a next state can lead to. -/
inductive StepEffect (s : State) : State → Prop where
  /-- No command was in flight before the cycle, or the outside abandoned it. -/
  | hostOnly (hidle : s.inFlight = none ∨ (hostPhase s).inFlight = none) : StepEffect s (hostPhase s)
  /-- The command in flight counts down (70_reset_and_hazards.md R250). -/
  | counts (r : InFlight) (hr : s.inFlight = some r) (hhost : (hostPhase s).inFlight = some r) (hrem : 1 < r.remaining) :
    StepEffect s { hostPhase s with inFlight := some { r with remaining := r.remaining - 1 } }
  /-- The command in flight ends without error. -/
  | ends (r : InFlight) (v : Word) (hr : s.inFlight = some r) (hhost : (hostPhase s).inFlight = some r) :
    StepEffect s (complete (rdField r.word) v (hostPhase s))
  /-- The command in flight ends in an error (60_exceptions.md R215). -/
  | fails (r : InFlight) (code : ErrorCode) (hr : s.inFlight = some r) (hhost : (hostPhase s).inFlight = some r)
    (hcode : code ≠ .none) : StepEffect s (raiseError code r.word (hostPhase s))

/-- A record in flight after the outside's part of a cycle that began busy is the one that was in flight. -/
theorem inFlight_of_hostPhase {s : State} {r : InFlight} (hb : s.inFlight ≠ none)
    (hhost : (hostPhase s).inFlight = some r) : s.inFlight = some r := by
  obtain ⟨q, hq⟩ := Option.ne_none_iff_exists'.mp hb
  rcases hostPhase_busy s q hq with h | ⟨h, -, -⟩ <;> simp_all

/-- While a command stays in flight the outside leaves the registers and ERRCMD alone (70_reset_and_hazards.md R251). -/
theorem hostPhase_keeps_of_inFlight {s : State} {r : InFlight} (hr : s.inFlight = some r)
    (hhost : (hostPhase s).inFlight = some r) : (hostPhase s).x = s.x ∧ (hostPhase s).errCmd = s.errCmd := by
  rcases hostPhase_busy s r hr with hnone | ⟨-, hx, hcmd⟩
  · simp [hnone] at hhost
  · exact ⟨hx, hcmd⟩

/-- The two ends of the command whose legal word is `word`. -/
theorem exec_of_decode {word : CmdWord} {i : Instr} (hd : decode word = .ok i) (u : State) :
    (∃ v, exec i u = .next (complete (rdField word) v u)) ∨
      ∃ code, code ≠ .none ∧ exec i u = .next (raiseError code word u) := by
  rcases exec_cases i u with ⟨v, -, h⟩ | ⟨code, herr, h⟩
  · exact .inl ⟨v, rdField_of_decode hd ▸ h⟩
  · exact .inr ⟨code, evaluate_error_ne_none herr, encode_of_decode hd ▸ h⟩

theorem step_effect {s t : State} (h : step s = .next t) : StepEffect s t := by
  rcases step_cases s with ⟨hn, hs⟩ | ⟨hn, hs⟩ | ⟨r, hb, hhost, hrem, hs⟩ | ⟨r, i, hb, hhost, -, hd, hs⟩ |
    ⟨-, -, -, -, -, -, hs⟩ <;> rw [hs] at h
  · cases h
    exact .hostOnly (.inl hn)
  · cases h
    exact .hostOnly (.inr hn)
  · cases h
    exact .counts r (inFlight_of_hostPhase hb hhost) hhost hrem
  · rcases exec_of_decode hd (hostPhase s) with ⟨v, hv⟩ | ⟨code, hcode, hv⟩ <;> rw [hv] at h <;> cases h
    · exact .ends r v (inFlight_of_hostPhase hb hhost) hhost
    · exact .fails r code (inFlight_of_hostPhase hb hhost) hhost hcode
  · cases h

end Sys2Proof.Machine

/-!
PROOFS. The machine invariant `Coherent`: it holds right after reset and every step keeps it (10_state.md R26, R30, R36,
70_reset_and_hazards.md R250).
-/

namespace Sys2Proof.Machine

open Sys2Proof.Claims

/-- With nothing in flight only the error fields matter. -/
theorem Coherent.of_idle {s : State} (hidle : s.inFlight = none) (hcode : s.err = false ↔ s.errCode = .none) :
    Coherent s where
  errNotBusy _ := hidle
  codeWithErr := hcode
  record r hr := by simp [hidle] at hr

/-- The invariant reads only the registers, the record and the error fields. -/
theorem Coherent.congr {s t : State} (hs : Coherent s) (hx : t.x = s.x) (hfly : t.inFlight = s.inFlight)
    (herr : t.err = s.err) (hcode : t.errCode = s.errCode) : Coherent t where
  errNotBusy := by simpa [hfly, herr] using hs.errNotBusy
  codeWithErr := by simpa [herr, hcode] using hs.codeWithErr
  record r hr := by simpa [latch_congr hx] using hs.record r (hfly ▸ hr)

theorem Coherent.clearedBy {s : State} (hs : Coherent s) (v : Word) : Coherent (clearedBy v s) where
  errNotBusy herr := by
    have hkept : v.getLsbD 2 = false ∧ s.err = true := by simpa [Claims.clearedBy] using herr
    exact hs.errNotBusy hkept.2
  codeWithErr := by
    have hcode := hs.codeWithErr
    cases h2 : v.getLsbD 2 <;> simp_all [Claims.clearedBy]
  record := hs.record

theorem Coherent.issue {s : State} (hs : Coherent s) (herr : s.err = false) {word : CmdWord} {i : Instr}
    (hd : decode word = .ok i) : Coherent (issue i word s) where
  errNotBusy h := by simp [herr] at h
  codeWithErr := hs.codeWithErr
  record r hr := by
    cases hr
    exact ⟨i, hd, rfl, latencyOf_pos i _⟩

theorem HostEffect.coherent {s u : State} (heff : HostEffect s u) (hs : Coherent s) : Coherent u := by
  have hans : Coherent (answered s ⟨false, 0⟩) := hs.congr rfl rfl rfl rfl
  cases heff with
  | reset keep => exact .of_idle rfl (by simp)
  | portOnly port resp => exact hs.congr rfl rfl rfl rfl
  | operandWrite off size v new _ _ _ hidle => exact .of_idle hidle hs.codeWithErr
  | drop v => exact hans.congr rfl rfl rfl rfl
  | issue v i _ _ herr hd => exact hans.issue herr hd
  | illegal v => exact .of_idle rfl (by simp)
  | clear v => exact hans.clearedBy v
  | enable v => exact hans.congr rfl rfl rfl rfl
  | softReset => exact .of_idle rfl (by simp)

/-- Counting down keeps a record's word and operands, and its latency positive. -/
theorem Coherent.countDown {s : State} (hs : Coherent s) {r : InFlight} (hr : s.inFlight = some r)
    (hrem : 1 < r.remaining) : Coherent { s with inFlight := some { r with remaining := r.remaining - 1 } } where
  errNotBusy herr := by simp [hs.errNotBusy herr] at hr
  codeWithErr := hs.codeWithErr
  record q hq := by
    obtain ⟨i, hd, hops, -⟩ := hs.record r hr
    cases hq
    exact ⟨i, hd, hops, Nat.le_sub_of_add_le hrem⟩

/-- Settles O53: the outside's part of the cycle keeps the invariant, and so does each thing the engine then does. -/
theorem stepKeepsTheInvariant : Obligations.StepKeepsTheInvariant := by
  unfold Obligations.StepKeepsTheInvariant
  intro s t hs hstep
  have hhost : Coherent (hostPhase s) := (hostPhase_effect s).coherent hs
  cases step_effect hstep with
  | hostOnly => exact hhost
  | counts r _ hfly hrem => exact hhost.countDown hfly hrem
  | ends r v => exact .of_idle rfl hhost.codeWithErr
  | fails r code _ _ hcode => exact .of_idle rfl (by simp [hcode])

/-- Settles O52: right after reset nothing is in flight and ERR and ERRCODE are 0. -/
theorem invariantHoldsAtReset : Obligations.InvariantHoldsAtReset := by
  unfold Obligations.InvariantHoldsAtReset
  exact .of_idle rfl (by simp [State.reset])

end Sys2Proof.Machine

/-!
PROOFS. The cycles that perform a write to a control register (10_state.md R25 to R34): what is left of the unit's
state, with nothing in flight, in a countdown and in a command's last cycle.
-/

namespace Sys2Proof.Machine

open Sys2Proof.Claims

/-- A cycle whose access leaves the in-flight record alone, in the words of the statements. -/
theorem stepsBy_of_hostPhase {s u : State} (h : hostPhase s = u) (hfly : u.inFlight = s.inFlight) : StepsBy s u :=
  step_of_hostPhase h hfly

/-- Settles O41: the write is performed, so nothing is in flight, and `issueOrDrop` discards the word. -/
theorem cmdWriteIsDroppedWhileErr : Obligations.CmdWriteIsDroppedWhileErr := by
  unfold Obligations.CmdWriteIsDroppedWhileErr
  intro s v hp herr
  have hidle : s.inFlight = none := idle_of_cmdWrite hp
  have hhost : hostPhase s = dropWord (answered s ⟨false, 0⟩) := (hostPhase_cmdWrite hp).trans (if_pos herr)
  exact ⟨hidle, (stepsBy_of_hostPhase hhost rfl).1 hidle⟩

/-- Settles O42: with nothing in flight the cycle ends where the write leads. -/
theorem statusAndCtrlWritesWhileIdle : Obligations.StatusAndCtrlWritesWhileIdle := by
  unfold Obligations.StatusAndCtrlWritesWhileIdle
  intro s v hidle
  refine ⟨fun hp => ?_, fun hp h31 => ?_⟩
  · exact (stepsBy_of_hostPhase (hostPhase_statusWrite hp) rfl).1 hidle
  · have hhost : hostPhase s = enabledBy v (answered s ⟨false, 0⟩) :=
      (hostPhase_ctrlWrite hp).trans (if_neg (Bool.eq_false_iff.mp h31))
    exact (stepsBy_of_hostPhase hhost rfl).1 hidle

/-- Settles O43: the command ends in the state that the STATUS write has already cleared, so its report wins. -/
theorem setWinsOverClearInOneCycle : Obligations.SetWinsOverClearInOneCycle := by
  unfold Obligations.SetWinsOverClearInOneCycle
  intro s r i v hr hrem hd hp
  obtain ⟨-, -, hend⟩ := stepsBy_of_hostPhase (hostPhase_statusWrite hp) rfl
  rw [hend r i hr hrem hd]
  rcases exec_of_decode hd (clearedBy v (answered s ⟨false, 0⟩)) with ⟨res, h⟩ | ⟨code, hcode, h⟩
  · exact ⟨_, h, by simp [clearedBy, answered, Bool.and_comm]⟩
  · exact ⟨_, h, by simp [clearedBy, answered, Bool.and_comm, hcode]⟩

/-- Settles O60: the write leaves nothing but its answer, and the engine acts as in any cycle. -/
theorem ignoredWritesChangeNothing : Obligations.IgnoredWritesChangeNothing := by
  unfold Obligations.IgnoredWritesChangeNothing
  intro s off v hoff hp
  have hhost : hostPhase s = answered s ⟨false, 0⟩ := by
    rcases hoff with rfl | rfl
    · exact hostPhase_write hp rfl
    · exact hostPhase_write hp rfl
  exact stepsBy_of_hostPhase hhost rfl

end Sys2Proof.Machine

/-!
PROOFS. STATUS, CTRL and irq bit by bit, and what a hardware reset leaves (10_state.md R25, R31, R37, R39).
-/

namespace Sys2Proof.Machine

open Sys2Proof.Claims

/-- STATUS bit by bit (10_state.md R25). -/
theorem statusWord_getLsbD (s : State) (i : Nat) : (statusWord s).getLsbD i =
    if i < 1 then (BitVec.ofBool (busy s)).getLsbD i
    else if i - 1 < 1 then (BitVec.ofBool s.done).getLsbD (i - 1)
    else if i - 1 - 1 < 1 then (BitVec.ofBool s.err).getLsbD (i - 1 - 1)
    else if i - 1 - 1 - 1 < 1 then (BitVec.ofBool s.drop).getLsbD (i - 1 - 1 - 1)
    else if i - 1 - 1 - 1 - 1 < 4 then false
    else if i - 1 - 1 - 1 - 1 - 4 < 4 then (codeBits s.errCode).getLsbD (i - 1 - 1 - 1 - 1 - 4)
    else false := by
  change (0#20 ++ codeBits s.errCode ++ 0#4 ++ BitVec.ofBool s.drop ++ BitVec.ofBool s.err ++ BitVec.ofBool s.done
    ++ BitVec.ofBool (busy s)).getLsbD i = _
  simp only [BitVec.getLsbD_append, BitVec.getLsbD_zero]

theorem statusWord_flags (s : State) : (statusWord s).getLsbD 0 = busy s ∧ (statusWord s).getLsbD 1 = s.done ∧
    (statusWord s).getLsbD 2 = s.err ∧ (statusWord s).getLsbD 3 = s.drop := by
  simp only [statusWord_getLsbD]
  simp

theorem statusWord_errCode (s : State) : (statusWord s).extractLsb' 8 4 = codeBits s.errCode := by
  ext i hi
  rw [BitVec.getElem_extractLsb', statusWord_getLsbD]
  have hpos : 8 + i - 1 - 1 - 1 - 1 - 4 = i := by omega
  rw [hpos]
  simp [hi]

theorem statusWord_reserved (s : State) :
    (statusWord s).extractLsb' 4 4 = 0 ∧ (statusWord s).extractLsb' 12 20 = 0 := by
  constructor
  · ext i hi
    simp [BitVec.getElem_extractLsb', statusWord_getLsbD]
    omega
  · ext i hi
    simp [BitVec.getElem_extractLsb', statusWord_getLsbD]
    omega

/-- CTRL bit by bit (10_state.md R31). -/
theorem ctrlWord_getLsbD (s : State) (i : Nat) : (ctrlWord s).getLsbD i =
    if i < 1 then (BitVec.ofBool s.ieDone).getLsbD i
    else if i - 1 < 1 then (BitVec.ofBool s.ieErr).getLsbD (i - 1)
    else false := by
  change (0#30 ++ BitVec.ofBool s.ieErr ++ BitVec.ofBool s.ieDone).getLsbD i = _
  simp only [BitVec.getLsbD_append, BitVec.getLsbD_zero]

theorem ctrlWord_fields (s : State) : (ctrlWord s).getLsbD 0 = s.ieDone ∧ (ctrlWord s).getLsbD 1 = s.ieErr ∧
    (ctrlWord s).extractLsb' 2 30 = 0 := by
  refine ⟨by rw [ctrlWord_getLsbD]; simp, by rw [ctrlWord_getLsbD]; simp, ?_⟩
  ext i hi
  simp [BitVec.getElem_extractLsb', ctrlWord_getLsbD]

theorem irq_iff (s : State) : irq s = true ↔ (s.done = true ∧ s.ieDone = true) ∨ (s.err = true ∧ s.ieErr = true) := by
  simp [irq]

/-- Settles O51: each field of STATUS and CTRL is read off the register's bits. -/
theorem statusCtrlAndIrqAreTheFields : Obligations.StatusCtrlAndIrqAreTheFields := by
  unfold Obligations.StatusCtrlAndIrqAreTheFields
  refine ⟨fun s => ?_, rfl⟩
  obtain ⟨hbusy, hdone, herr, hdrop⟩ := statusWord_flags s
  obtain ⟨hlow, hhigh⟩ := statusWord_reserved s
  obtain ⟨hieDone, hieErr, hctrl⟩ := ctrlWord_fields s
  exact ⟨hbusy, hdone, herr, hdrop, hlow, statusWord_errCode s, hhigh, hieDone, hieErr, hctrl, irq_iff s⟩

/-- A unit at its reset values is fresh, whatever waits at its port (10_state.md R39). -/
theorem freshFromReset_waiting (port : List HostAccess) (inputs : List Input) :
    FreshFromReset { State.reset with port := port, inputs := inputs } := by
  have hstatus : statusWord State.reset = 0 := by decide
  have hctrl : ctrlWord State.reset = 0 := by decide
  exact ⟨hstatus, hctrl, rfl, rfl, rfl, fun r => by simp [operandReg, State.reset]⟩

/-- Settles O50: a cycle with the hardware reset asserted ends in the reset state around the waiting accesses. -/
theorem hardwareResetLeavesTheResetState : Obligations.HardwareResetLeavesTheResetState := by
  unfold Obligations.HardwareResetLeavesTheResetState
  refine ⟨freshFromReset_waiting [] [], fun s hr => ?_⟩
  obtain ⟨keep, hhost⟩ := hostPhase_reset s hr
  have hstep : step s = .next (hardwareReset keep { s with inputs := s.inputs.tail }) := by
    rw [step, hhost, engineEvent_abandoned _ _ rfl]
  refine ⟨?_, _, hstep, freshFromReset_waiting _ _, rfl, rfl⟩
  cases hp : performedIn s with
  | none => rfl
  | some a => simp [resetIn_of_performed hp] at hr

end Sys2Proof.Machine

/-!
PROOFS. What every step of the machine keeps: the sticky STATUS bits, ERRCMD and the operand registers, each read off
`HostEffect` and `StepEffect` (10_state.md R20, R23, R27 to R29, R32).
-/

namespace Sys2Proof.Machine

open Sys2Proof.Claims

section Host
variable {s u : State}

/-- The outside lowers DONE, ERR and DROP only by a reset or by a STATUS write of 1 (10_state.md R27 to R29). -/
theorem HostEffect.statusBits_sticky (heff : HostEffect s u) :
    (s.done = true → u.done = false → resetIn s = true ∨ SoftResetIn s ∨ ClearedIn 1 s) ∧
      (s.err = true → u.err = false → resetIn s = true ∨ SoftResetIn s ∨ ClearedIn 2 s) ∧
      (s.drop = true → u.drop = false → resetIn s = true ∨ SoftResetIn s ∨ ClearedIn 3 s) := by
  cases heff with
  | reset keep hr => simp [hr]
  | softReset hsoft => simp [hsoft]
  | clear v hp =>
    have hcleared {k : Nat} (hk : v.getLsbD k = true) : resetIn s = true ∨ SoftResetIn s ∨ ClearedIn k s :=
      .inr (.inr ⟨v, hp, hk⟩)
    refine ⟨fun h h' => hcleared ?_, fun h h' => hcleared ?_, fun h h' => hcleared ?_⟩ <;>
      simpa [clearedBy, answered, h] using h'
  | portOnly | operandWrite | drop | issue | illegal | enable => simp +contextual [answered, enabledBy]

/-- The outside changes ERRCMD only by a reset or by an illegal word (10_state.md R32). -/
theorem HostEffect.errCmd_changed (heff : HostEffect s u) (hne : u.errCmd ≠ s.errCmd) :
    resetIn s = true ∨ SoftResetIn s ∨
      (u.err = true ∧ ∃ v, performedIn s = some (cmdWrite v) ∧ u.errCmd = v.setWidth 32) := by
  cases heff with
  | reset keep hr => exact .inl hr
  | softReset hsoft => exact .inr (.inl hsoft)
  | illegal v hp => exact .inr (.inr ⟨rfl, v, hp, rfl⟩)
  | portOnly | operandWrite | drop | issue | clear | enable => exact absurd rfl hne

/-- The outside changes an operand register only by a hardware reset or by an accepted write to it (10_state.md R20). -/
theorem HostEffect.operandReg_changed (heff : HostEffect s u) {q : Reg} (hne : operandReg u q ≠ operandReg s q) :
    resetIn s = true ∨ ∃ off size v, performedIn s = some (.write off size v) ∧ accepted off size = true ∧
      off.toNat < 0x80 ∧ off.toNat / 8 = q.toNat := by
  cases heff with
  | reset keep hr => exact .inl hr
  | operandWrite off size v new hp hacc hoff =>
    have hq : q = regAt off := by
      by_contra hq
      exact hne (operandReg_setOperandReg_ne _ _ q new hq)
    exact .inr ⟨off, size, v, hp, hacc, hoff, by rw [hq, regAt_toNat hoff]⟩
  | portOnly | drop | issue | illegal | clear | enable | softReset => exact absurd rfl hne

end Host

/-- Settles O57: the engine lowers none of the three bits, so the outside's part of the cycle did. -/
theorem statusBitsAreSticky : Obligations.StatusBitsAreSticky := by
  unfold Obligations.StatusBitsAreSticky
  intro s t hstep
  have hengine : (t.done = false → (hostPhase s).done = false) ∧ (t.err = false → (hostPhase s).err = false) ∧
      (t.drop = false → (hostPhase s).drop = false) := by
    cases step_effect hstep with
    | hostOnly | counts => exact ⟨id, id, id⟩
    | ends => exact ⟨by simp, id, id⟩
    | fails => exact ⟨id, by simp, id⟩
  obtain ⟨hdone, herr, hdrop⟩ := hengine
  obtain ⟨hdone', herr', hdrop'⟩ := (hostPhase_effect s).statusBits_sticky
  exact ⟨fun h h' => hdone' h (hdone h'), fun h h' => herr' h (herr h'), fun h h' => hdrop' h (hdrop h')⟩

/-- Settles O58: ERRCMD changes in the outside's part of the cycle, or by the failing command. -/
theorem errcmdChangesOnlyByErrorOrReset : Obligations.ErrcmdChangesOnlyByErrorOrReset := by
  unfold Obligations.ErrcmdChangesOnlyByErrorOrReset
  intro s t hstep hne
  cases step_effect hstep with
  | hostOnly =>
    rcases (hostPhase_effect s).errCmd_changed hne with hr | hsoft | ⟨herr, v, hp, hword⟩
    · exact .inl hr
    · exact .inr (.inl hsoft)
    · exact .inr (.inr ⟨herr, .inr ⟨v, hp, hword⟩⟩)
  | counts r hr hhost => exact absurd (hostPhase_keeps_of_inFlight hr hhost).2 hne
  | ends r v hr hhost => exact absurd (hostPhase_keeps_of_inFlight hr hhost).2 hne
  | fails r code hr => exact .inr (.inr ⟨rfl, .inl ⟨r, hr, rfl⟩⟩)

/-- Settles O59: a register changes in the outside's part of the cycle, or it is the destination of the command that
ends. -/
theorem registersChangeOnlyByWriteOrCompletion : Obligations.RegistersChangeOnlyByWriteOrCompletion := by
  unfold Obligations.RegistersChangeOnlyByWriteOrCompletion
  intro s t q hstep hne
  have hkept {r : InFlight} (hr : s.inFlight = some r) (hhost : (hostPhase s).inFlight = some r) :
      operandReg (hostPhase s) q = operandReg s q := operandReg_congr (hostPhase_keeps_of_inFlight hr hhost).1 q
  cases step_effect hstep with
  | hostOnly =>
    rcases (hostPhase_effect s).operandReg_changed hne with hr | hwrite
    · exact .inl hr
    · exact .inr (.inl hwrite)
  | counts r hr hhost => exact absurd (hkept hr hhost) hne
  | ends r v hr hhost =>
    have hq : q = rdField r.word := by
      by_contra hq
      exact hne ((operandReg_complete_ne _ q v _ hq).trans (hkept hr hhost))
    exact .inr (.inr ⟨r, hr, hq.symm, rfl, rfl⟩)
  | fails r code hr hhost => exact absurd (hkept hr hhost) hne

end Sys2Proof.Machine

/-!
PROOFS. Host accesses to the register window: which are accepted, what a refused access, a read and a write of an
operand register do, and the cycles that perform them (20_memory.md R52 to R58).
-/

namespace Sys2Proof.Machine

open Sys2Proof.Claims

/-! ## Which accesses are accepted -/

/-- The accepted accesses (20_memory.md R56, R57). -/
theorem accepted_iff (off : BitVec 8) (size : AccessSize) : accepted off size = true ↔
    (size = .b4 ∧ off.toNat % 4 = 0 ∧ off.toNat ≤ 0x90) ∨ (size = .b8 ∧ off.toNat % 8 = 0 ∧ off.toNat < 0x80) := by
  cases size <;> simp [accepted]

/-- Each reason of 20_memory.md R57 and R58 to refuse an access. -/
theorem accepted_eq_false {off : BitVec 8} {size : AccessSize}
    (h : size = .b1 ∨ size = .b2 ∨ off.toNat % byteCount size ≠ 0 ∨ (size = .b8 ∧ 0x80 ≤ off.toNat) ∨
      0x94 ≤ off.toNat) :
    accepted off size = false := by
  rw [← Bool.not_eq_true, accepted_iff]
  rintro (⟨rfl, halign, hbound⟩ | ⟨rfl, halign, hbound⟩)
  · simp only [byteCount, reduceCtorEq, false_and, false_or] at h
    omega
  · simp only [byteCount, reduceCtorEq, true_and, false_or] at h
    omega

/-- An accepted access covers 8 aligned bytes of the window, their low half or their high half (20_memory.md R53,
R56). -/
theorem accepted_cases {off : BitVec 8} {size : AccessSize} (hacc : accepted off size = true) :
    (size = .b8 ∧ off.toNat % 8 = 0) ∨ (size = .b4 ∧ off.toNat % 8 = 0) ∨ (size = .b4 ∧ off.toNat % 8 = 4) := by
  rcases (accepted_iff off size).mp hacc with ⟨hsize, halign, -⟩ | ⟨hsize, halign, -⟩
  · have hhalf : off.toNat % 8 = 0 ∨ off.toNat % 8 = 4 := by omega
    exact .inr (hhalf.imp (⟨hsize, ·⟩) (⟨hsize, ·⟩))
  · exact .inl ⟨hsize, halign⟩

/-! ## Refused accesses and reads -/

theorem held_eq_false_of_refused (s : State) {a : HostAccess} {off : BitVec 8} {size : AccessSize}
    (ha : a = .read off size ∨ ∃ v, a = .write off size v) (hacc : accepted off size = false) : held s a = false := by
  rcases ha with rfl | ⟨v, rfl⟩ <;> simp [held, hacc]

theorem hostPhase_refused {s : State} {a : HostAccess} {off : BitVec 8} {size : AccessSize}
    (ha : a = .read off size ∨ ∃ v, a = .write off size v) (hacc : accepted off size = false)
    (hp : performedIn s = some a) : hostPhase s = answered s ⟨true, 0⟩ := by
  rw [(hostPhase_performed s a hp).1]
  rcases ha with rfl | ⟨v, rfl⟩
  · exact if_neg (Bool.eq_false_iff.mp hacc)
  · exact if_neg (Bool.eq_false_iff.mp hacc)

theorem hostPhase_read {s : State} {off : BitVec 8} {size : AccessSize} (hp : performedIn s = some (.read off size))
    (hacc : accepted off size = true) : hostPhase s = answered s ⟨false, readWindow s off size⟩ := by
  rw [(hostPhase_performed s _ hp).1]
  exact if_pos hacc

/-- Settles O46: `perform` answers SLVERR before it looks at the window, and the engine acts as in any cycle. -/
theorem refusedAccessesChangeNothing : Obligations.RefusedAccessesChangeNothing := by
  unfold Obligations.RefusedAccessesChangeNothing
  intro s a off size ha hreason
  have hacc : accepted off size = false := accepted_eq_false hreason
  exact ⟨held_eq_false_of_refused s ha hacc, fun hp => stepsBy_of_hostPhase (hostPhase_refused ha hacc hp) rfl⟩

/-- Settles O45: the read leaves nothing but its answer, which is the register at its offset. -/
theorem readsReturnTheirRegisterAndChangeNothing : Obligations.ReadsReturnTheirRegisterAndChangeNothing := by
  unfold Obligations.ReadsReturnTheirRegisterAndChangeNothing
  intro s off size hp hacc
  refine ⟨readWindow s off size, stepsBy_of_hostPhase (hostPhase_read hp hacc) rfl, ?cmd, ?status, ?ctrl, ?errcmd, ?id,
    fun _ => rfl⟩
  all_goals
    rintro rfl
    rfl

/-! ## The bytes of an operand register -/

/-- A byte of a slice of a register is a byte of the register. -/
theorem extractLsb'_byte_slice (v : Word) (start : Nat) {len pos : Nat} (hpos : pos + 8 ≤ len) :
    (v.extractLsb' start len).extractLsb' pos 8 = v.extractLsb' (start + pos) 8 := by
  ext i hi
  have hin : pos + i < len := by omega
  simp [BitVec.getElem_extractLsb', hin, Nat.add_assoc]

/-- The value of a read of an operand register: its bytes from byte `off mod 8` on, as many as the access has,
zero-extended (20_memory.md R53, notes/assumptions/8.md). -/
theorem readWindow_operand (s : State) {off : BitVec 8} {size : AccessSize} (hacc : accepted off size = true)
    (hoff : off.toNat < 0x80) : readWindow s off size =
      ((readReg s (regAt off)).extractLsb' (8 * (off.toNat % 8)) (8 * byteCount size)).setWidth 64 := by
  have hread : readWindow s off size = readOperandWindow s off size := if_pos hoff
  rw [hread]
  rcases accepted_cases hacc with ⟨rfl, hpos⟩ | ⟨rfl, hpos⟩ | ⟨rfl, hpos⟩
  · simp [readOperandWindow, byteCount, hpos]
  · simp [readOperandWindow, byteCount, isHighHalf, hpos]
  · simp [readOperandWindow, byteCount, isHighHalf, hpos]

theorem byteCount_le (size : AccessSize) : byteCount size ≤ 8 := by cases size <;> decide

/-- Settles O47: a byte of the answer below the size is a byte of the register, and one above it is of the
zero-extension. -/
theorem operandReadsAreLittleEndian : Obligations.OperandReadsAreLittleEndian := by
  unfold Obligations.OperandReadsAreLittleEndian
  intro s off size hacc hoff k
  have hsize := byteCount_le size
  rw [readWindow_operand s hacc hoff]
  split
  next hk =>
    rw [BitVec.extractLsb'_setWidth_of_le (by omega), extractLsb'_byte_slice _ _ (by omega), Nat.mul_add, regAt]
  next hk =>
    have hout (i : Nat) : ¬ 8 * k + i < 8 * byteCount size := by omega
    ext i hi
    simp [hout]

/-- `new` is the register `old` with the `n` bytes from byte `first` on replaced by the low `n` bytes of `v`, and the
halves among them marked written (20_memory.md R53, R56). -/
structure ReplacesBytes (first n : Nat) (v : Word) (old new : OperandReg) : Prop where
  bytes : ∀ m, m < 8 → new.value.extractLsb' (8 * m) 8 =
    if first ≤ m ∧ m < first + n then v.extractLsb' (8 * (m - first)) 8 else old.value.extractLsb' (8 * m) 8
  lo : new.loWritten = true ↔ old.loWritten = true ∨ (first ≤ 0 ∧ 0 < first + n)
  hi : new.hiWritten = true ↔ old.hiWritten = true ∨ (first ≤ 4 ∧ 4 < first + n)

theorem replacesBytes_whole (v : Word) (old : OperandReg) : ReplacesBytes 0 8 v old ⟨v, true, true⟩ where
  bytes m hm := by simp [hm]
  lo := by simp
  hi := by simp

theorem replacesBytes_low (v : Word) (old : OperandReg) :
    ReplacesBytes 0 4 v old ⟨old.value.extractLsb' 32 32 ++ v.setWidth 32, true, old.hiWritten⟩ where
  bytes m hm := by
    by_cases hlow : m < 4
    · rw [if_pos ⟨Nat.zero_le m, by omega⟩, BitVec.extractLsb'_append_eq_of_add_le (by omega),
        BitVec.extractLsb'_setWidth_of_le (by omega), Nat.sub_zero]
    · have hbyte : 32 + (8 * m - 32) = 8 * m := by omega
      rw [if_neg (by omega), BitVec.extractLsb'_append_eq_of_le (by omega), extractLsb'_byte_slice _ _ (by omega),
        hbyte]
  lo := by simp
  hi := by simp

theorem replacesBytes_high (v : Word) (old : OperandReg) :
    ReplacesBytes 4 4 v old ⟨v.setWidth 32 ++ old.value.extractLsb' 0 32, old.loWritten, true⟩ where
  bytes m hm := by
    by_cases hlow : m < 4
    · rw [if_neg (by omega), BitVec.extractLsb'_append_eq_of_add_le (by omega), extractLsb'_byte_slice _ _ (by omega),
        Nat.zero_add]
    · have hbyte : 8 * m - 32 = 8 * (m - 4) := by omega
      rw [if_pos ⟨by omega, by omega⟩, BitVec.extractLsb'_append_eq_of_le (by omega), hbyte,
        BitVec.extractLsb'_setWidth_of_le (by omega)]
  lo := by simp
  hi := by simp

/-- An accepted write to an operand register replaces its bytes in that register (20_memory.md R55). -/
theorem writeWindow_operand (s : State) {off : BitVec 8} {size : AccessSize} (v : Word)
    (hacc : accepted off size = true) (hoff : off.toNat < 0x80) :
    ∃ new, writeWindow s off size v = setOperandReg s (regAt off) new ∧
      ReplacesBytes (off.toNat % 8) (byteCount size) v (operandReg s (regAt off)) new := by
  have hwrite : writeWindow s off size v = writeOperandWindow s off size v := if_pos hoff
  rw [hwrite]
  rcases accepted_cases hacc with ⟨rfl, hpos⟩ | ⟨rfl, hpos⟩ | ⟨rfl, hpos⟩ <;> rw [hpos]
  · exact ⟨_, rfl, replacesBytes_whole v _⟩
  · have hlow : isHighHalf off = false := by simp [isHighHalf, hpos]
    exact ⟨_, if_neg (Bool.eq_false_iff.mp hlow), replacesBytes_low v _⟩
  · have hhigh : isHighHalf off = true := by simp [isHighHalf, hpos]
    exact ⟨_, if_pos hhigh, replacesBytes_high v _⟩

/-- Settles O48: the write puts one register back, in which `ReplacesBytes` says what changed. -/
theorem operandWritesReplaceTheirBytes : Obligations.OperandWritesReplaceTheirBytes := by
  unfold Obligations.OperandWritesReplaceTheirBytes
  intro s off size v hacc hoff hidle hp
  obtain ⟨new, hwrite, hnew⟩ := writeWindow_operand (answered s ⟨false, 0⟩) v hacc hoff
  have hhost : hostPhase s = setOperandReg (answered s ⟨false, 0⟩) (regAt off) new :=
    (hostPhase_write hp hacc).trans hwrite
  refine ⟨_, (stepsBy_of_hostPhase hhost rfl).1 hidle, ?_⟩
  intro q covered before after
  by_cases hq : q = regAt off
  · subst hq
    have hafter : after = new := operandReg_setOperandReg_same s _ new
    have hcovered (m : Nat) : covered m ↔ off.toNat % 8 ≤ m ∧ m < off.toNat % 8 + byteCount size :=
      and_iff_right (regAt_toNat hoff)
    simp only [hafter, hcovered]
    exact ⟨hnew.bytes, hnew.lo, hnew.hi⟩
  · have hafter : after = before := operandReg_setOperandReg_ne s _ q new hq
    have hcovered (m : Nat) : ¬ covered m := fun ⟨hreg, _⟩ =>
      hq (BitVec.eq_of_toNat_eq (hreg.trans (regAt_toNat hoff).symm))
    simp [hafter, hcovered]

end Sys2Proof.Machine

/-!
PROOFS. Encoding and decoding undo each other (30_encoding.md R71, R72, R79 to R83, R86).
-/

namespace Sys2Proof

/-! ## What the decoder of each class reads back from a packed word -/

section Packed
variable (rs3 rs2 rs1 rd : Reg) (w : Width) (opc : BitVec 8) (imm : BitVec 16)

theorem decodeU_packR (mk : Width → Reg → Reg → Instr) : decodeU (packR 0 0 rs1 rd w opc) mk = .ok (mk w rd rs1) := by
  simp [decodeU]

theorem decodeB_packR (mk : Width → Reg → Reg → Reg → Instr) :
    decodeB (packR 0 rs2 rs1 rd w opc) mk = .ok (mk w rd rs1 rs2) := by
  simp [decodeB]

theorem decodeT_packR (mk : Width → Reg → Reg → Reg → Reg → Instr) :
    decodeT (packR rs3 rs2 rs1 rd w opc) mk = .ok (mk w rd rs1 rs2 rs3) := by
  simp [decodeT]

theorem decodeI_packI (mk : Width → Reg → BitVec 16 → Instr) : decodeI (packI imm rd w opc) mk = .ok (mk w rd imm) := by
  simp [decodeI]

end Packed

/-- The opcode byte of the encoder's word selects the arm of the command, and that arm reads its fields back. -/
@[simp] theorem decode_encode (i : Instr) : decode (encode i) = .ok i := by
  cases i with
  | mov | popcnt | clz | ctz | bitlen | lsb1 | msb1 | foldmsb | foldlsb | revbits | revbytes | gray | igray =>
    simp only [encode, decode, opcField_packR, decodeU_packR]
  | li => simp only [encode, decode, opcField_packI, decodeI_packI]
  | getbit | setbit | clrbit | flipbit | mul | mulh | mulhu | mulc | mulcu | div | divu | rem | remu =>
    simp only [encode, decode, opcField_packR, decodeB_packR]
  | mulmod | powmod => simp only [encode, decode, opcField_packR, decodeT_packR]

theorem decode_of_encode_eq {word : CmdWord} {i : Instr} (h : encode i = word) : decode word = .ok i :=
  h ▸ decode_encode i

/-- Settles O1, by the operand class of the command. -/
theorem decodeEncodeRoundTrip : Obligations.DecodeEncodeRoundTrip := by
  unfold Obligations.DecodeEncodeRoundTrip
  exact decode_encode

/-- Settles O2: a word that the decoder accepts is put together from the fields it reads. -/
theorem legalWordIsTheOnlyWord : Obligations.LegalWordIsTheOnlyWord := by
  unfold Obligations.LegalWordIsTheOnlyWord
  exact fun _ _ => encode_of_decode

/-- Settles O4: each word is its command's word, and the round trip reads it back. -/
theorem workedEncodingsDecode : Obligations.WorkedEncodingsDecode := by
  unfold Obligations.WorkedEncodingsDecode
  have hpopcnt : encode (.popcnt .w64 2 1) = 0x00004B14#32 := by decide
  have hli : encode (.li .w64 1 0xFFFF) = 0xFFFF0702#32 := by decide
  have hpowmod : encode (.powmod .w64 4 1 2 3) = 0x00C85331#32 := by decide
  have hdivu : encode (.divu .w32 5 6 7) = 0x001D9626#32 := by decide
  exact ⟨decode_of_encode_eq hpopcnt, hpopcnt, decode_of_encode_eq hli, hli, decode_of_encode_eq hpowmod, hpowmod,
    decode_of_encode_eq hdivu, hdivu⟩

end Sys2Proof

/-!
PROOFS. The decoder against the match and mask columns of the opcode map (30_encoding.md R80, R81): a row's mask is the
opcode byte and the bits that its class keeps at 0, and the decoder checks the same two things.
-/

namespace Sys2Proof

/-! ## Masks and fields -/

/-- The mask of the `len` bits from bit `start` on. -/
def fieldMask (start len : Nat) : CmdWord := (BitVec.allOnes len).setWidth 32 <<< start

theorem fieldMask_getLsbD (start len j : Nat) :
    (fieldMask start len).getLsbD j = decide (j < 32 ∧ start ≤ j ∧ j < start + len) := by
  rw [fieldMask, BitVec.getLsbD_shiftLeft, BitVec.getLsbD_setWidth, BitVec.getLsbD_allOnes]
  grind

/-- A field is 0 exactly when no bit under its mask is set. -/
theorem and_fieldMask_eq_zero_iff (word : CmdWord) (start len : Nat) :
    word &&& fieldMask start len = 0#32 ↔ word.extractLsb' start len = 0#len := by
  have hmask : word &&& fieldMask start len = 0#32 ↔
      ∀ j < 32, start ≤ j → j < start + len → word.getLsbD j = false := by
    simp only [BitVec.eq_of_getLsbD_eq_iff, BitVec.getLsbD_and, fieldMask_getLsbD, BitVec.getLsbD_zero]
    grind
  have hfield : word.extractLsb' start len = 0#len ↔ ∀ j < len, word.getLsbD (start + j) = false := by
    simp +contextual [BitVec.eq_of_getLsbD_eq_iff]
  rw [hmask, hfield]
  constructor
  · intro h j hj
    by_cases hin : start + j < 32
    · exact h _ hin (by omega) (by omega)
    · exact BitVec.getLsbD_of_ge _ _ (by omega)
  · intro h j _ hstart hend
    have hbit := h (j - start) (by omega)
    rwa [Nat.add_sub_cancel' hstart] at hbit

/-- The bits that a word of each operand class keeps at 0: the reserved ones and those of the register fields that the
class does not use (30_encoding.md R79). -/
def zeroMask (cls : OperandClass) : CmdWord :=
  match cls with
  | .u => 0xFC000000#32 ||| 0x03FC0000#32
  | .b => 0xFC000000#32 ||| 0x03C00000#32
  | .t => 0xFC000000#32
  | .i => 0x0000C000#32

theorem and_or_eq_zero_iff (word m n : CmdWord) :
    word &&& (m ||| n) = 0#32 ↔ word &&& m = 0#32 ∧ word &&& n = 0#32 := by
  rw [BitVec.and_or_distrib_left]
  exact BitVec.or_eq_zero_iff

theorem and_rsvR_eq_zero_iff (word : CmdWord) : word &&& 0xFC000000#32 = 0#32 ↔ rsvRField word = 0#6 :=
  and_fieldMask_eq_zero_iff word 26 6

theorem and_rsvI_eq_zero_iff (word : CmdWord) : word &&& 0x0000C000#32 = 0#32 ↔ rsvIField word = 0#2 :=
  and_fieldMask_eq_zero_iff word 14 2

theorem and_rs2_eq_zero_iff (word : CmdWord) : word &&& 0x003C0000#32 = 0#32 ↔ rs2Field word = 0#4 :=
  and_fieldMask_eq_zero_iff word 18 4

theorem and_rs3_eq_zero_iff (word : CmdWord) : word &&& 0x03C00000#32 = 0#32 ↔ rs3Field word = 0#4 :=
  and_fieldMask_eq_zero_iff word 22 4

theorem and_rs2_rs3_eq_zero_iff (word : CmdWord) :
    word &&& 0x03FC0000#32 = 0#32 ↔ rs2Field word = 0#4 ∧ rs3Field word = 0#4 := by
  rw [← and_rs2_eq_zero_iff, ← and_rs3_eq_zero_iff, ← and_or_eq_zero_iff]
  rfl

section ZeroMask
variable (word : CmdWord)

theorem and_zeroMask_u_iff :
    word &&& zeroMask .u = 0#32 ↔ rsvRField word = 0#6 ∧ rs2Field word = 0#4 ∧ rs3Field word = 0#4 := by
  rw [zeroMask, and_or_eq_zero_iff, and_rsvR_eq_zero_iff, and_rs2_rs3_eq_zero_iff]

theorem and_zeroMask_b_iff : word &&& zeroMask .b = 0#32 ↔ rsvRField word = 0#6 ∧ rs3Field word = 0#4 := by
  rw [zeroMask, and_or_eq_zero_iff, and_rsvR_eq_zero_iff, and_rs3_eq_zero_iff]

theorem and_zeroMask_t_iff : word &&& zeroMask .t = 0#32 ↔ rsvRField word = 0#6 := and_rsvR_eq_zero_iff word

theorem and_zeroMask_i_iff : word &&& zeroMask .i = 0#32 ↔ rsvIField word = 0#2 := and_rsvI_eq_zero_iff word

end ZeroMask

/-! ## The rows of the opcode map -/

/-- The opcode byte of a row (30_encoding.md R80). -/
def OpcodeRow.opcode (row : OpcodeRow) : BitVec 8 := row.matchWord.setWidth 8

theorem map_opcode_opcodeMap : opcodeMap.map OpcodeRow.opcode =
    [0x01#8, 0x02#8, 0x10#8, 0x11#8, 0x12#8, 0x13#8, 0x14#8, 0x15#8, 0x16#8, 0x17#8, 0x18#8, 0x19#8, 0x1A#8, 0x1B#8,
      0x1C#8, 0x1D#8, 0x1E#8, 0x1F#8, 0x20#8, 0x21#8, 0x22#8, 0x23#8, 0x24#8, 0x25#8, 0x26#8, 0x27#8, 0x28#8, 0x30#8,
      0x31#8] := by
  rfl

theorem mask_and_match_of_row : ∀ row ∈ opcodeMap,
    row.mask = 0xFF#32 ||| zeroMask row.cls ∧ row.matchWord = row.opcode.setWidth 32 := by
  decide +kernel

theorem rowOfOpcode_opcode : ∀ row ∈ opcodeMap, rowOfOpcode row.opcode = some row := by
  decide +kernel

theorem eq_of_mnemonic_eq : ∀ row ∈ opcodeMap, ∀ row' ∈ opcodeMap, row'.mnemonic = row.mnemonic → row' = row := by
  decide +kernel

theorem mem_opcodeMap_of_rowOfOpcode {opc : BitVec 8} {row : OpcodeRow} (h : rowOfOpcode opc = some row) :
    row ∈ opcodeMap ∧ row.opcode = opc :=
  ⟨List.mem_of_find?_eq_some h, by simpa [OpcodeRow.opcode] using List.find?_some h⟩

/-- The opcode byte and the bits above it can be compared apart. -/
theorem and_eq_opcode_iff (word zeros : CmdWord) (opc : BitVec 8) (hzeros : zeros &&& 0xFF#32 = 0#32) :
    word &&& (0xFF#32 ||| zeros) = opc.setWidth 32 ↔ opcField word = opc ∧ word &&& zeros = 0#32 := by
  have hlow (j : Nat) : (0xFF#32).getLsbD j = decide (j < 32 ∧ 0 ≤ j ∧ j < 0 + 8) := fieldMask_getLsbD 0 8 j
  have hdisjoint (j : Nat) : zeros.getLsbD j = true → 8 ≤ j := by
    intro hj
    have hbit := congrArg (BitVec.getLsbD · j) hzeros
    have hj32 := BitVec.lt_of_getLsbD hj
    simp [hlow, hj] at hbit
    omega
  have hopc (j : Nat) : opc.getLsbD j = true → j < 8 := BitVec.lt_of_getLsbD
  simp only [opcField, BitVec.eq_of_getLsbD_eq_iff, BitVec.getLsbD_and, BitVec.getLsbD_or, BitVec.getLsbD_setWidth,
    BitVec.getLsbD_extractLsb', hlow, BitVec.getLsbD_zero]
  grind

theorem zeroMask_and_opcode (cls : OperandClass) : zeroMask cls &&& 0xFF#32 = 0#32 := by cases cls <;> rfl

/-- A row selects the words that carry its opcode and keep the bits of its class at 0. -/
theorem and_mask_eq_match_iff {row : OpcodeRow} (hrow : row ∈ opcodeMap) (word : CmdWord) :
    word &&& row.mask = row.matchWord ↔ rowOfOpcode (opcField word) = some row ∧ word &&& zeroMask row.cls = 0#32 := by
  obtain ⟨hmask, hmatch⟩ := mask_and_match_of_row row hrow
  have hopc : opcField word = row.opcode ↔ rowOfOpcode (opcField word) = some row :=
    ⟨fun h => h ▸ rowOfOpcode_opcode row hrow, fun h => (mem_opcodeMap_of_rowOfOpcode h).2.symm⟩
  rw [hmask, hmatch, and_eq_opcode_iff word _ _ (zeroMask_and_opcode row.cls), hopc]

theorem setWidth_eq_opcField (word : CmdWord) : word.setWidth 8 = opcField word :=
  BitVec.setWidth_eq_extractLsb' (by decide)

/-- The checks of 30_encoding.md R81, for the row that the opcode names. -/
theorem wellFormed_iff (word : CmdWord) :
    wellFormed word = true ↔ ∃ row, rowOfOpcode (opcField word) = some row ∧ word &&& zeroMask row.cls = 0#32 := by
  unfold wellFormed opcodeDefined reservedZero unusedZero
  rw [setWidth_eq_opcField]
  cases rowOfOpcode (opcField word) with
  | none => simp
  | some row =>
    obtain ⟨_, cls, _, _⟩ := row
    cases cls with
    | u => simp [and_zeroMask_u_iff, and_rsvR_eq_zero_iff, and_rs2_rs3_eq_zero_iff]
    | b => simp [and_zeroMask_b_iff, and_rsvR_eq_zero_iff, and_rs3_eq_zero_iff]
    | t => simp [and_zeroMask_t_iff, and_rsvR_eq_zero_iff]
    | i => simp [and_zeroMask_i_iff, and_rsvI_eq_zero_iff]

/-! ## The decoder follows the row that the opcode names -/

/-- `res` accepts a word as a command of `row` when the bits of the row's class are 0, and rejects it when they are
not (30_encoding.md R81). -/
def FollowsRow (word : CmdWord) (row : OpcodeRow) (res : Except DecodeError Instr) : Prop :=
  if word &&& zeroMask row.cls = 0#32 then ∃ i, res = .ok i ∧ mnemonic i = row.mnemonic else ∃ e, res = .error e

section Classes
variable (word : CmdWord) {name : String} {m k : CmdWord}

theorem followsRow_decodeU {mk : Width → Reg → Reg → Instr} (hmk : ∀ w rd rs1, mnemonic (mk w rd rs1) = name) :
    FollowsRow word ⟨name, .u, m, k⟩ (decodeU word mk) := by
  simp only [FollowsRow, and_zeroMask_u_iff, decodeU]
  split_ifs <;> simp_all

theorem followsRow_decodeB {mk : Width → Reg → Reg → Reg → Instr}
    (hmk : ∀ w rd rs1 rs2, mnemonic (mk w rd rs1 rs2) = name) :
    FollowsRow word ⟨name, .b, m, k⟩ (decodeB word mk) := by
  simp only [FollowsRow, and_zeroMask_b_iff, decodeB]
  split_ifs <;> simp_all

theorem followsRow_decodeT {mk : Width → Reg → Reg → Reg → Reg → Instr}
    (hmk : ∀ w rd rs1 rs2 rs3, mnemonic (mk w rd rs1 rs2 rs3) = name) :
    FollowsRow word ⟨name, .t, m, k⟩ (decodeT word mk) := by
  simp only [FollowsRow, and_zeroMask_t_iff, decodeT]
  split_ifs <;> simp_all

theorem followsRow_decodeI {mk : Width → Reg → BitVec 16 → Instr} (hmk : ∀ w rd imm, mnemonic (mk w rd imm) = name) :
    FollowsRow word ⟨name, .i, m, k⟩ (decodeI word mk) := by
  simp only [FollowsRow, and_zeroMask_i_iff, decodeI]
  split_ifs <;> simp_all

end Classes

theorem decode_of_no_row {word : CmdWord} (h : rowOfOpcode (opcField word) = none) :
    decode word = .error .undefinedOpcode := by
  unfold decode
  split
  case h_30 => rfl
  all_goals
    rename_i hopc
    rw [hopc] at h
    cases h

theorem decode_followsRow {word : CmdWord} {row : OpcodeRow} (h : rowOfOpcode (opcField word) = some row) :
    FollowsRow word row (decode word) := by
  unfold decode
  split
  case h_30 =>
    obtain ⟨hrow, hopc⟩ := mem_opcodeMap_of_rowOfOpcode h
    have hmem : row.opcode ∈ opcodeMap.map OpcodeRow.opcode := List.mem_map_of_mem hrow
    rw [hopc, map_opcode_opcodeMap] at hmem
    simp_all
  all_goals
    rename_i hopc
    rw [hopc] at h
    cases h
  case h_2 => exact followsRow_decodeI word fun _ _ _ => rfl
  case h_28 | h_29 => exact followsRow_decodeT word fun _ _ _ _ _ => rfl
  case h_1 | h_7 | h_8 | h_9 | h_10 | h_11 | h_12 | h_13 | h_14 | h_15 | h_16 | h_17 | h_18 =>
    exact followsRow_decodeU word fun _ _ _ => rfl
  all_goals exact followsRow_decodeB word fun _ _ _ _ => rfl

/-- A word is a command exactly when it passes the checks of 30_encoding.md R81. -/
theorem wellFormed_iff_decode (word : CmdWord) : wellFormed word = true ↔ ∃ i, decode word = .ok i := by
  rw [wellFormed_iff]
  cases hrow : rowOfOpcode (opcField word) with
  | none => simp [decode_of_no_row hrow]
  | some row =>
    have hfollows := decode_followsRow hrow
    by_cases hzero : word &&& zeroMask row.cls = 0#32
    · obtain ⟨i, hd, -⟩ := (if_pos hzero).mp hfollows
      exact ⟨fun _ => ⟨i, hd⟩, fun _ => ⟨row, rfl, hzero⟩⟩
    · obtain ⟨e, hd⟩ := (if_neg hzero).mp hfollows
      simp [hzero, hd]

/-- A row selects exactly the words of its own commands. -/
theorem and_mask_eq_match_iff_decode {row : OpcodeRow} (hrow : row ∈ opcodeMap) (word : CmdWord) :
    word &&& row.mask = row.matchWord ↔ ∃ i, decode word = .ok i ∧ mnemonic i = row.mnemonic := by
  rw [and_mask_eq_match_iff hrow]
  constructor
  · rintro ⟨hopc, hzero⟩
    exact (if_pos hzero).mp (decode_followsRow hopc)
  · rintro ⟨i, hd, hname⟩
    obtain ⟨row', hopc, hzero⟩ := (wellFormed_iff word).mp ((wellFormed_iff_decode word).mpr ⟨i, hd⟩)
    obtain ⟨i', hd', hname'⟩ := (if_pos hzero).mp (decode_followsRow hopc)
    obtain rfl : i' = i := by simpa [hd'] using hd
    obtain rfl : row' = row :=
      eq_of_mnemonic_eq row hrow row' (mem_opcodeMap_of_rowOfOpcode hopc).1 (hname'.symm.trans hname)
    exact ⟨hopc, hzero⟩

theorem exists_error_of_wellFormed_eq_false {word : CmdWord} (h : wellFormed word = false) :
    ∃ e, decode word = .error e := by
  cases hd : decode word with
  | ok i => simp [(wellFormed_iff_decode word).mpr ⟨i, hd⟩] at h
  | error e => exact ⟨e, rfl⟩

/-- A well-formed word would be selected by the row that its opcode names. -/
theorem wellFormed_eq_false_of_no_row {word : CmdWord} (hnone : ∀ row ∈ opcodeMap, word &&& row.mask ≠ row.matchWord) :
    wellFormed word = false := by
  rw [← Bool.not_eq_true, wellFormed_iff]
  rintro ⟨row, hopc, hzero⟩
  have hrow := (mem_opcodeMap_of_rowOfOpcode hopc).1
  exact hnone row hrow ((and_mask_eq_match_iff hrow word).mpr ⟨hopc, hzero⟩)

/-- Settles O3: the row that the opcode names decides, for the masks, for the decoder and for the checks of R81. -/
theorem decodeFollowsTheOpcodeMap : Obligations.DecodeFollowsTheOpcodeMap := by
  unfold Obligations.DecodeFollowsTheOpcodeMap
  exact ⟨fun _ hrow => and_mask_eq_match_iff_decode hrow,
    fun _ hnone => exists_error_of_wellFormed_eq_false (wellFormed_eq_false_of_no_row hnone), wellFormed_iff_decode⟩

end Sys2Proof

/-!
PROOFS. Operand fetch by the fields of the command word (30_encoding.md R77, R79, 40_bit_primitives.md R100).
-/

namespace Sys2Proof

/-- The opcode ranges of 30_encoding.md R80 and what a command of each reads off its word: an immediate, one source,
a bit index, two sources, three sources. -/
inductive FieldsOfWord (word : CmdWord) (opc : Nat) : Fields → Prop where
  | i (hopc : opc = 0x02) :
    FieldsOfWord word opc (fieldsI (widthOfCode (widthField word)) (rdField word) (immField word))
  | u (hopc : opc = 0x01 ∨ 0x14 ≤ opc ∧ opc ≤ 0x1F) :
    FieldsOfWord word opc (fieldsU (widthOfCode (widthField word)) (rdField word) (rs1Field word))
  | index (hopc : 0x10 ≤ opc ∧ opc ≤ 0x13) :
    FieldsOfWord word opc
      (fieldsIndex (widthOfCode (widthField word)) (rdField word) (rs1Field word) (rs2Field word))
  | b (hopc : 0x20 ≤ opc ∧ opc ≤ 0x28) :
    FieldsOfWord word opc (fieldsB (widthOfCode (widthField word)) (rdField word) (rs1Field word) (rs2Field word))
  | t (hopc : 0x30 ≤ opc ∧ opc ≤ 0x31) :
    FieldsOfWord word opc
      (fieldsT (widthOfCode (widthField word)) (rdField word) (rs1Field word) (rs2Field word) (rs3Field word))

theorem fieldsOfWord_of_decode {word : CmdWord} {i : Instr} (h : decode word = .ok i) :
    FieldsOfWord word (opcField word).toNat (fieldsOf i) := by
  unfold decode at h
  split at h
  case h_30 => cases h
  all_goals
    rename_i hopc
    rw [hopc]
  case h_2 =>
    obtain ⟨-, rfl⟩ := decodeI_ok h
    exact .i (by decide)
  case h_28 | h_29 =>
    obtain ⟨-, rfl⟩ := decodeT_ok h
    exact .t (by decide)
  case h_3 | h_4 | h_5 | h_6 =>
    obtain ⟨-, -, rfl⟩ := decodeB_ok h
    exact .index (by decide)
  case h_1 | h_7 | h_8 | h_9 | h_10 | h_11 | h_12 | h_13 | h_14 | h_15 | h_16 | h_17 | h_18 =>
    obtain ⟨-, -, -, rfl⟩ := decodeU_ok h
    exact .u (by decide)
  all_goals
    obtain ⟨-, -, rfl⟩ := decodeB_ok h
    exact .b (by decide)

end Sys2Proof

namespace Sys2Proof.Machine

open Sys2Proof.Claims

section Latch
variable {i : Instr} {w : Width} {rd rs1 rs2 rs3 : Reg} {imm : BitVec 16} (s : State)

theorem latch_of_fieldsI (h : fieldsOf i = fieldsI w rd imm) : latch i s = ⟨0, 0, 0, 0⟩ := by
  simp [latch, h, fieldsI, fetchLow]

theorem latch_of_fieldsU (h : fieldsOf i = fieldsU w rd rs1) : latch i s = ⟨lowBits w (readReg s rs1), 0, 0, 0⟩ := by
  simp [latch, h, fieldsU, fetchLow]

theorem latch_of_fieldsIndex (h : fieldsOf i = fieldsIndex w rd rs1 rs2) :
    latch i s = ⟨lowBits w (readReg s rs1), 0, 0, readReg s rs2⟩ := by
  simp [latch, h, fieldsIndex, fetchLow]

theorem latch_of_fieldsB (h : fieldsOf i = fieldsB w rd rs1 rs2) :
    latch i s = ⟨lowBits w (readReg s rs1), lowBits w (readReg s rs2), 0, 0⟩ := by
  simp [latch, h, fieldsB, fetchLow]

theorem latch_of_fieldsT (h : fieldsOf i = fieldsT w rd rs1 rs2 rs3) :
    latch i s = ⟨lowBits w (readReg s rs1), lowBits w (readReg s rs2), lowBits w (readReg s rs3), 0⟩ := by
  simp [latch, h, fieldsT, fetchLow]

end Latch

/-- Settles O5: the opcode's range says which fields of the word the command reads, and with them each part of the
record. -/
theorem latchReadsTheSourcesOfTheWord : Obligations.LatchReadsTheSourcesOfTheWord := by
  unfold Obligations.LatchReadsTheSourcesOfTheWord
  intro word i s hd n low opc
  have hfields : FieldsOfWord word opc (fieldsOf i) := fieldsOfWord_of_decode hd
  clear_value opc
  generalize hf : fieldsOf i = f at hfields
  cases hfields with
  | i hopc =>
    rw [latch_of_fieldsI s hf, if_pos hopc, if_neg (by omega), if_neg (by omega), if_neg (by omega)]
  | u hopc =>
    rw [latch_of_fieldsU s hf, if_neg (by omega), if_neg (by omega), if_neg (by omega), if_neg (by omega)]
    rfl
  | index hopc =>
    rw [latch_of_fieldsIndex s hf, if_neg (by omega), if_neg (by omega), if_neg (by omega), if_pos hopc]
    rfl
  | b hopc =>
    rw [latch_of_fieldsB s hf, if_neg (by omega), if_pos hopc.1, if_neg (by omega), if_neg (by omega)]
    rfl
  | t hopc =>
    rw [latch_of_fieldsT s hf, if_neg (by omega), if_pos (by omega), if_pos hopc.1, if_neg (by omega)]
    rfl

/-- Placing a command's word puts the command in its last cycle, with nothing waiting outside (notes/assumptions/4.md). -/
theorem withFetchWord_encode (s : State) (i : Instr) : s.withFetchWord 32 (encode i).toNat =
    { s with
      inFlight := some { word := encode i, operands := latch i s, remaining := 1 }
      port := []
      inputs := [] } := by
  have hword : BitVec.ofNat 32 ((encode i).toNat % 2 ^ 32) = encode i := by
    rw [Nat.mod_eq_of_lt (encode i).isLt, BitVec.ofNat_toNat, BitVec.setWidth_eq]
  rw [State.withFetchWord, hword, placeCommand, decode_encode]

theorem hostPhase_of_nothing_waiting {s : State} (hport : s.port = []) (hinputs : s.inputs = []) :
    hostPhase s = { s with response := none } := by
  simp [hostPhase, servePort, hport, hinputs]

/-- Settles O38: the placed command's last cycle comes at once, and the outside only takes back the last response. -/
theorem placedCommandRunsNext : Obligations.PlacedCommandRunsNext := by
  unfold Obligations.PlacedCommandRunsNext
  intro s i
  have hplaced := withFetchWord_encode s i
  have hhost := hostPhase_of_nothing_waiting (congrArg State.port hplaced) (congrArg State.inputs hplaced)
  obtain ⟨-, -, hlast⟩ := stepsBy_of_hostPhase hhost rfl
  rw [hlast _ i (congrArg State.inFlight hplaced) le_rfl (decode_encode i), hplaced]

/-- Settles O40: the word decodes to no command, so the write itself raises ILLEGAL in a unit with nothing in flight. -/
theorem illegalWordIsRecordedAtIssue : Obligations.IllegalWordIsRecordedAtIssue := by
  unfold Obligations.IllegalWordIsRecordedAtIssue
  intro s v hp herr hill
  have hidle : s.inFlight = none := idle_of_cmdWrite hp
  obtain ⟨e, hd⟩ := exists_error_of_wellFormed_eq_false hill
  have hissue : issueOrDrop (v.setWidth 32) (answered s ⟨false, 0⟩) =
      raiseError .illegal (v.setWidth 32) (answered s ⟨false, 0⟩) := by
    simp [issueOrDrop, answered, herr, hd]
  have hstep := (stepsBy_of_hostPhase ((hostPhase_cmdWrite hp).trans hissue) hidle.symm).1 hidle
  refine ⟨hidle, hstep.trans ?_⟩
  simp [raiseError, answered, hidle]

end Sys2Proof.Machine

/-!
PROOFS. How a command ends, said through its rule: what the rule answers on the operands fixes the whole next state
(30_encoding.md R77, R78, 60_exceptions.md R215).
-/

namespace Sys2Proof.Machine

open Sys2Proof.Claims

theorem hasOpcode_of_packR {i : Instr} {rs3 rs2 rs1 rd : Reg} {w : Width} {opc : BitVec 8}
    (h : encode i = packR rs3 rs2 rs1 rd w opc) : HasOpcode i opc := by
  rw [HasOpcode, h]
  exact opcField_packR ..

theorem setWidth_lowBits (w : Width) (v : Word) :
    (lowBits w v).setWidth (widthBits w) = v.setWidth (widthBits w) := by
  ext j hj
  simp [lowBits_getLsbD, hj, ← BitVec.getLsbD_eq_getElem]

section Ends
variable {i : Instr} {w : Width} {rd rs1 rs2 : Reg} (s : State)

/-- The first operand of a command whose class reads RS1 (30_encoding.md R77). -/
theorem operandsFor_a (hw : (fieldsOf i).w = w) (hrs1 : (fieldsOf i).rs1 = some rs1) :
    (operandsFor i s).a.setWidth (widthBits w) = opA s rs1 w := by
  unfold opA
  cases hfly : s.inFlight with
  | some r => rw [operandsFor_inFlight i s r hfly]
  | none => simp [operandsFor_idle i s hfly, latch, hw, hrs1, fetchLow, setWidth_lowBits]

/-- The bit index of a single-bit command is the whole register (40_bit_primitives.md R100). -/
theorem operandsFor_idx (hindex : (fieldsOf i).index = true) (hrs2 : (fieldsOf i).rs2 = some rs2) :
    uint (operandsFor i s).idx = bitIndex s rs2 := by
  unfold bitIndex uint
  cases hfly : s.inFlight with
  | some r => rw [operandsFor_inFlight i s r hfly]
  | none => simp [operandsFor_idle i s hfly, latch, hindex, hrs2]

theorem endsWith_of_rule {s : State} (hw : (fieldsOf i).w = w) (hrd : (fieldsOf i).rd = rd)
    {res : BitVec (widthBits w)} (hrule : ruleOf i (widthBits w) (argsOf (widthBits w) (operandsFor i s)) = .ok res) :
    EndsWith i rd (res.setWidth 64) s := by
  subst hw hrd
  have heval : evaluate i (ruleOf i) (operandsFor i s) = .ok (res.setWidth 64) := by rw [evaluate, hrule]
  exact (exec_eq_runCommand i s).trans (runCommand_ok heval)

theorem endsInError_of_rule {s : State} {code : ErrorCode} (hw : (fieldsOf i).w = w)
    (hrule : ruleOf i (widthBits w) (argsOf (widthBits w) (operandsFor i s)) = .error code) :
    EndsInError i code s := by
  subst hw
  have heval : evaluate i (ruleOf i) (operandsFor i s) = .error code := by rw [evaluate, hrule]
  exact (exec_eq_runCommand i s).trans (runCommand_error heval)

/-- A command of class U whose rule computes `op` of its operand. -/
theorem endsWith_of_fieldsU (hfields : fieldsOf i = fieldsU w rd rs1)
    {op : BitVec (widthBits w) → BitVec (widthBits w)} (hrule : ∀ p, ruleOf i (widthBits w) p = .ok (op p.a)) :
    EndsWith i rd ((op (opA s rs1 w)).setWidth 64) s := by
  have hw : (fieldsOf i).w = w := by rw [hfields, fieldsU]
  rw [← operandsFor_a s hw (by rw [hfields, fieldsU])]
  exact endsWith_of_rule hw (by rw [hfields, fieldsU]) (hrule _)

/-- A single-bit command whose rule computes `op` of its operand and its index: RANGE exactly when the index is not
below the width (40_bit_primitives.md R100). -/
theorem ends_of_fieldsIndex (hfields : fieldsOf i = fieldsIndex w rd rs1 rs2)
    {op : BitVec (widthBits w) → Nat → BitVec (widthBits w)}
    (hrule : ∀ p, ruleOf i (widthBits w) p =
      if uint p.idx ≥ widthBits w then .error .range else .ok (op p.a (uint p.idx))) :
    (bitIndex s rs2 < widthBits w → EndsWith i rd ((op (opA s rs1 w) (bitIndex s rs2)).setWidth 64) s) ∧
    (widthBits w ≤ bitIndex s rs2 → EndsInError i .range s) := by
  have hw : (fieldsOf i).w = w := by rw [hfields, fieldsIndex]
  have ha : (operandsFor i s).a.setWidth (widthBits w) = opA s rs1 w :=
    operandsFor_a s hw (by rw [hfields, fieldsIndex])
  have hidx : uint (operandsFor i s).idx = bitIndex s rs2 :=
    operandsFor_idx s (by rw [hfields, fieldsIndex]) (by rw [hfields, fieldsIndex])
  constructor
  · intro hlt
    refine endsWith_of_rule hw (by rw [hfields, fieldsIndex]) ?_
    rw [hrule, argsOf, hidx, if_neg (by omega), ha]
  · intro hge
    refine endsInError_of_rule hw ?_
    rw [hrule, argsOf, hidx, if_pos hge]

end Ends

/-- A zero-extended result has the bits `f` when it has them below the width. -/
theorem hasBits_setWidth {w : Width} {res : BitVec (widthBits w)} {f : Nat → Bool}
    (h : ∀ j, j < widthBits w → res.getLsbD j = f j) : HasBits w (res.setWidth 64) f := by
  intro j
  have hle := widthBits_le w
  rw [BitVec.getLsbD_setWidth]
  by_cases hj : j < widthBits w
  · rw [h j hj]
    simp [hj, show j < 64 by omega]
  · simp [BitVec.getLsbD_of_ge res j (by omega), hj]

theorem setWidth_patNat {w : Width} {m : Nat} (h : m < 2 ^ widthBits w) :
    (patNat (widthBits w) m).setWidth 64 = BitVec.ofNat 64 m :=
  BitVec.setWidth_ofNat_of_le_of_lt (widthBits_le w) h

end Sys2Proof.Machine

/-!
PROOFS. The single-bit commands (40_bit_primitives.md R100 to R104): each works with the pattern whose one 1-bit is at
the index.
-/

namespace Sys2Proof.Machine

open Sys2Proof.Claims

theorem getLsbD_one_shiftLeft {n j : Nat} (k : Nat) (hj : j < n) : (1#n <<< k).getLsbD j = decide (j = k) := by
  rw [← BitVec.twoPow_eq, BitVec.getLsbD_twoPow]
  grind

theorem getLsbD_patNat_toNat {n j : Nat} (b : Bool) (hj : j < n) :
    (patNat n b.toNat).getLsbD j = (decide (j = 0) && b) := by
  cases b <;> simp [patNat, show 0 < n by omega]

/-- Settles O8: the result's bit 0 alone can be 1. -/
theorem getbitReadsTheIndexedBit : Obligations.GetbitReadsTheIndexedBit := by
  unfold Obligations.GetbitReadsTheIndexedBit
  intro w rd rs1 rs2 s
  obtain ⟨hok, herr⟩ := ends_of_fieldsIndex (i := .getbit w rd rs1 rs2) s rfl
    (op := fun a k => patNat _ (a.getLsbD k).toNat) fun _ => rfl
  exact ⟨hasOpcode_of_packR rfl, fun hlt => ⟨_, hok hlt, hasBits_setWidth fun j => getLsbD_patNat_toNat _⟩, herr⟩

/-- Settles O9, by OR with the index's bit. -/
theorem setbitSetsTheIndexedBit : Obligations.SetbitSetsTheIndexedBit := by
  unfold Obligations.SetbitSetsTheIndexedBit
  intro w rd rs1 rs2 s
  obtain ⟨hok, herr⟩ := ends_of_fieldsIndex (i := .setbit w rd rs1 rs2) s rfl
    (op := fun a k => a ||| 1#_ <<< k) fun _ => rfl
  refine ⟨hasOpcode_of_packR rfl, fun hlt => ⟨_, hok hlt, hasBits_setWidth fun j hj => ?_⟩, herr⟩
  rw [BitVec.getLsbD_or, getLsbD_one_shiftLeft _ hj, Bool.or_comm]

/-- Settles O10, by AND with the complement of the index's bit. -/
theorem clrbitClearsTheIndexedBit : Obligations.ClrbitClearsTheIndexedBit := by
  unfold Obligations.ClrbitClearsTheIndexedBit
  intro w rd rs1 rs2 s
  obtain ⟨hok, herr⟩ := ends_of_fieldsIndex (i := .clrbit w rd rs1 rs2) s rfl
    (op := fun a k => a &&& ~~~(1#_ <<< k)) fun _ => rfl
  refine ⟨hasOpcode_of_packR rfl, fun hlt => ⟨_, hok hlt, hasBits_setWidth fun j hj => ?_⟩, herr⟩
  rw [BitVec.getLsbD_and, BitVec.getLsbD_not, getLsbD_one_shiftLeft _ hj, decide_eq_true hj, Bool.true_and,
    Bool.and_comm]

/-- Settles O11, by XOR with the index's bit. -/
theorem flipbitInvertsTheIndexedBit : Obligations.FlipbitInvertsTheIndexedBit := by
  unfold Obligations.FlipbitInvertsTheIndexedBit
  intro w rd rs1 rs2 s
  obtain ⟨hok, herr⟩ := ends_of_fieldsIndex (i := .flipbit w rd rs1 rs2) s rfl
    (op := fun a k => a ^^^ 1#_ <<< k) fun _ => rfl
  refine ⟨hasOpcode_of_packR rfl, fun hlt => ⟨_, hok hlt, hasBits_setWidth fun j hj => ?_⟩, herr⟩
  rw [BitVec.getLsbD_xor, getLsbD_one_shiftLeft _ hj, Bool.xor_comm]

end Sys2Proof.Machine

/-!
PROOFS. The bit functions by the top and the low 1-bit of their operand (40_bit_primitives.md R110 to R117).
-/

namespace Sys2Proof.Machine

open Sys2Proof.Claims

section TopAndLow
variable {n k : Nat} {a : BitVec n}

theorem highestBelow_getLsbD_eq_some_iff : highestBelow a.getLsbD n = some k ↔ IsTop a k := by
  rw [highestBelow_eq_some]
  constructor
  · rintro ⟨-, hbit, habove⟩
    refine ⟨hbit, fun j hj => ?_⟩
    by_cases hjn : j < n
    · exact habove j hj hjn
    · exact BitVec.getLsbD_of_ge a j (by omega)
  · rintro ⟨hbit, habove⟩
    exact ⟨BitVec.lt_of_getLsbD hbit, hbit, fun j hj _ => habove j hj⟩

theorem lowestBelow_getLsbD_eq_some_iff : lowestBelow a.getLsbD n = some k ↔ IsLow a k := by
  rw [lowestBelow_eq_some]
  exact ⟨fun ⟨_, hlow⟩ => hlow, fun hlow => ⟨BitVec.lt_of_getLsbD hlow.1, hlow⟩⟩

theorem forall_getLsbD_eq_false_iff : (∀ j, j < n → a.getLsbD j = false) ↔ a = 0#n := by
  rw [BitVec.eq_of_getLsbD_eq_iff]
  simp

theorem isTop_lt (h : IsTop a k) : k < n := BitVec.lt_of_getLsbD h.1

theorem isLow_lt (h : IsLow a k) : k < n := BitVec.lt_of_getLsbD h.1

theorem ne_zero_of_isTop (h : IsTop a k) : a ≠ 0 := by
  rintro rfl
  simpa using h.1

theorem ne_zero_of_isLow (h : IsLow a k) : a ≠ 0 := by
  rintro rfl
  simpa using h.1

theorem exists_isTop (ha : a ≠ 0) : ∃ k, IsTop a k := by
  cases htop : highestBelow a.getLsbD n with
  | none => exact absurd (forall_getLsbD_eq_false_iff.mp ((highestBelow_eq_none _ n).mp htop)) ha
  | some k => exact ⟨k, highestBelow_getLsbD_eq_some_iff.mp htop⟩

theorem exists_isLow (ha : a ≠ 0) : ∃ k, IsLow a k := by
  cases hlow : lowestBelow a.getLsbD n with
  | none => exact absurd (forall_getLsbD_eq_false_iff.mp ((lowestBelow_eq_none _ n).mp hlow)) ha
  | some k => exact ⟨k, lowestBelow_getLsbD_eq_some_iff.mp hlow⟩

/-! ### The counts -/

theorem leadingZeros_of_isTop (h : IsTop a k) : leadingZeros a = n - 1 - k := by
  rw [leadingZeros, highestBelow_getLsbD_eq_some_iff.mpr h]

theorem bitLength_of_isTop (h : IsTop a k) : bitLength a = k + 1 := by
  rw [bitLength, highestBelow_getLsbD_eq_some_iff.mpr h]

theorem trailingZeros_of_isLow (h : IsLow a k) : trailingZeros a = k := by
  rw [trailingZeros, lowestBelow_getLsbD_eq_some_iff.mpr h]

@[simp] theorem leadingZeros_zero : leadingZeros 0#n = n := by
  rw [leadingZeros, (highestBelow_eq_none _ n).mpr (forall_getLsbD_eq_false_iff.mpr rfl)]

@[simp] theorem bitLength_zero : bitLength 0#n = 0 := by
  rw [bitLength, (highestBelow_eq_none _ n).mpr (forall_getLsbD_eq_false_iff.mpr rfl)]

@[simp] theorem trailingZeros_zero : trailingZeros 0#n = n := by
  rw [trailingZeros, (lowestBelow_eq_none _ n).mpr (forall_getLsbD_eq_false_iff.mpr rfl)]

theorem popCount_eq_card (a : BitVec n) :
    popCount a = ((Finset.range n).filter fun j => a.getLsbD j = true).card :=
  countBelow_eq_card a.getLsbD n

theorem popCount_le (a : BitVec n) : popCount a ≤ n := countBelow_le a.getLsbD n

/-! ### The isolated bits and the folds -/

theorem getLsbD_patNat_two_pow {j : Nat} (hj : j < n) : (patNat n (2 ^ k)).getLsbD j = decide (k = j) := by
  rw [patNat, BitVec.getLsbD_ofNat, Nat.testBit_two_pow, decide_eq_true hj, Bool.true_and]

theorem one_shiftLeft_eq_patNat : 1#n <<< k = patNat n (2 ^ k) := by
  rw [← BitVec.twoPow_eq]
  exact BitVec.eq_of_toNat_eq (by rw [BitVec.toNat_twoPow, patNat, BitVec.toNat_ofNat])

/-- LSB1's rule is the operand AND its negation (40_bit_primitives.md R114). -/
theorem isolateLow_eq_and_neg (a : BitVec n) : isolateLow a = a &&& -a := by
  rw [isolateLow, BitVec.neg_eq_not_add, patNat, uint, BitVec.ofNat_add, BitVec.ofNat_toNat, BitVec.setWidth_eq]

theorem getLsbD_isolateLow (j : Nat) :
    (isolateLow a).getLsbD j = true ↔ a.getLsbD j = true ∧ ∀ i < j, a.getLsbD i = false := by
  rw [isolateLow_eq_and_neg, BitVec.getLsbD_and, BitVec.getLsbD_neg]
  cases hbit : a.getLsbD j with
  | false => simp
  | true => simp [BitVec.lt_of_getLsbD hbit]

theorem isLow_iff_eq (h : IsLow a k) (j : Nat) : IsLow a j ↔ k = j := by
  refine ⟨fun hj => ?_, fun e => e ▸ h⟩
  rw [← trailingZeros_of_isLow h, trailingZeros_of_isLow hj]

theorem isolateLow_of_isLow (h : IsLow a k) : isolateLow a = patNat n (2 ^ k) := by
  refine BitVec.eq_of_getLsbD_eq fun j hj => ?_
  rw [getLsbD_patNat_two_pow hj, Bool.eq_iff_iff, getLsbD_isolateLow, decide_eq_true_iff]
  exact isLow_iff_eq h j

theorem isolateHigh_of_isTop (h : IsTop a k) : isolateHigh a = patNat n (2 ^ k) := by
  rw [isolateHigh, if_neg (ne_zero_of_isTop h), bitLength_of_isTop h, Nat.add_sub_cancel, one_shiftLeft_eq_patNat]

theorem foldDown_of_isTop (h : IsTop a k) : foldDown a = patNat n (2 ^ (k + 1) - 1) := by
  rw [foldDown, if_neg (ne_zero_of_isTop h), bitLength_of_isTop h]

theorem foldUp_of_isLow (h : IsLow a k) : foldUp a = patNat n (2 ^ n - 2 ^ k) := by
  rw [foldUp, if_neg (ne_zero_of_isLow h), trailingZeros_of_isLow h]

@[simp] theorem isolateLow_zero : isolateLow 0#n = 0#n := BitVec.zero_and

@[simp] theorem isolateHigh_zero : isolateHigh 0#n = 0#n := if_pos rfl

@[simp] theorem foldDown_zero : foldDown 0#n = 0#n := if_pos rfl

@[simp] theorem foldUp_zero : foldUp 0#n = 0#n := if_pos rfl

end TopAndLow

/-! ### The commands -/

section Ends
variable {i : Instr} {w : Width} {rd rs1 : Reg} {s : State} {op : BitVec (widthBits w) → BitVec (widthBits w)}

/-- A command of class U whose result is a number that fits in the width. -/
theorem endsWith_patNat (hfields : fieldsOf i = fieldsU w rd rs1)
    (hrule : ∀ p, ruleOf i (widthBits w) p = .ok (op p.a)) {m : Nat}
    (hop : op (opA s rs1 w) = patNat (widthBits w) m) (hm : m < 2 ^ widthBits w) :
    EndsWith i rd (BitVec.ofNat 64 m) s := by
  rw [← setWidth_patNat hm, ← hop]
  exact endsWith_of_fieldsU s hfields hrule

/-- A command of class U whose result is a count of bits of its operand. -/
theorem endsWith_count (hfields : fieldsOf i = fieldsU w rd rs1) {count : BitVec (widthBits w) → Nat}
    (hrule : ∀ p, ruleOf i (widthBits w) p = .ok (patNat (widthBits w) (count p.a))) {m : Nat}
    (hcount : count (opA s rs1 w) = m) (hm : m ≤ widthBits w) : EndsWith i rd (BitVec.ofNat 64 m) s :=
  endsWith_patNat (op := fun a => patNat _ (count a)) hfields hrule (by rw [hcount])
    (hm.trans_lt Nat.lt_two_pow_self)

/-- A command of class U that keeps 0, on the operand 0. -/
theorem endsWith_zero (hfields : fieldsOf i = fieldsU w rd rs1)
    (hrule : ∀ p, ruleOf i (widthBits w) p = .ok (op p.a)) (hop : op 0 = 0) (hzero : opA s rs1 w = 0) :
    EndsWith i rd 0 s :=
  endsWith_patNat hfields hrule (m := 0) (by rw [hzero, hop]; rfl) (by positivity)

end Ends

/-- Settles O12: the count over the positions is the size of the set of 1-bits. -/
theorem popcntCountsTheOneBits : Obligations.PopcntCountsTheOneBits := by
  unfold Obligations.PopcntCountsTheOneBits
  intro w rd rs1 s
  rw [← popCount_eq_card]
  exact ⟨hasOpcode_of_packR rfl, endsWith_count (count := popCount) rfl (fun _ => rfl) rfl (popCount_le _)⟩

/-- Settles O13, by the two readings of the leading zero count. -/
theorem clzCountsAboveTheTopBit : Obligations.ClzCountsAboveTheTopBit := by
  unfold Obligations.ClzCountsAboveTheTopBit
  intro w rd rs1 s
  refine ⟨hasOpcode_of_packR rfl, fun hzero => ?_, fun k htop => ?_⟩
  · exact endsWith_count (count := leadingZeros) rfl (fun _ => rfl) (by simp [hzero]) le_rfl
  · exact endsWith_count (count := leadingZeros) rfl (fun _ => rfl) (leadingZeros_of_isTop htop) (by omega)

/-- Settles O14, by the two readings of the trailing zero count. -/
theorem ctzCountsBelowTheLowBit : Obligations.CtzCountsBelowTheLowBit := by
  unfold Obligations.CtzCountsBelowTheLowBit
  intro w rd rs1 s
  refine ⟨hasOpcode_of_packR rfl, fun hzero => ?_, fun k hlow => ?_⟩
  · exact endsWith_count (count := trailingZeros) rfl (fun _ => rfl) (by simp [hzero]) le_rfl
  · exact endsWith_count (count := trailingZeros) rfl (fun _ => rfl) (trailingZeros_of_isLow hlow) (isLow_lt hlow).le

/-- Settles O15, by the two readings of the bit length. -/
theorem bitlenIsTopBitPlusOne : Obligations.BitlenIsTopBitPlusOne := by
  unfold Obligations.BitlenIsTopBitPlusOne
  intro w rd rs1 s
  refine ⟨hasOpcode_of_packR rfl, fun hzero => ?_, fun k htop => ?_⟩
  · exact endsWith_count (count := bitLength) rfl (fun _ => rfl) (by simp [hzero]) (Nat.zero_le _)
  · exact endsWith_count (count := bitLength) rfl (fun _ => rfl) (bitLength_of_isTop htop) (isTop_lt htop)

/-- Settles O16: a bit survives the AND with the negation exactly when it is the least significant 1-bit. -/
theorem lsb1IsolatesTheLowBit : Obligations.Lsb1IsolatesTheLowBit := by
  unfold Obligations.Lsb1IsolatesTheLowBit
  intro w rd rs1 s
  exact ⟨hasOpcode_of_packR rfl, endsWith_zero rfl (fun _ => rfl) isolateLow_zero,
    fun k hlow => endsWith_patNat rfl (fun _ => rfl) (isolateLow_of_isLow hlow)
      (Nat.pow_lt_pow_right one_lt_two (isLow_lt hlow))⟩

/-- Settles O17: the shift of 1 is by the position of the top bit. -/
theorem msb1IsolatesTheTopBit : Obligations.Msb1IsolatesTheTopBit := by
  unfold Obligations.Msb1IsolatesTheTopBit
  intro w rd rs1 s
  exact ⟨hasOpcode_of_packR rfl, endsWith_zero rfl (fun _ => rfl) isolateHigh_zero,
    fun k htop => endsWith_patNat rfl (fun _ => rfl) (isolateHigh_of_isTop htop)
      (Nat.pow_lt_pow_right one_lt_two (isTop_lt htop))⟩

/-- Settles O18, by the bit length of the operand. -/
theorem foldmsbFillsBelowTheTopBit : Obligations.FoldmsbFillsBelowTheTopBit := by
  unfold Obligations.FoldmsbFillsBelowTheTopBit
  intro w rd rs1 s
  exact ⟨hasOpcode_of_packR rfl, endsWith_zero rfl (fun _ => rfl) foldDown_zero,
    fun k htop => endsWith_patNat rfl (fun _ => rfl) (foldDown_of_isTop htop)
      (Nat.sub_one_lt_of_le (Nat.two_pow_pos _) (Nat.pow_le_pow_right two_pos (isTop_lt htop)))⟩

/-- Settles O19, by the trailing zero count of the operand. -/
theorem foldlsbFillsAboveTheLowBit : Obligations.FoldlsbFillsAboveTheLowBit := by
  unfold Obligations.FoldlsbFillsAboveTheLowBit
  intro w rd rs1 s
  exact ⟨hasOpcode_of_packR rfl, endsWith_zero rfl (fun _ => rfl) foldUp_zero,
    fun k hlow => endsWith_patNat rfl (fun _ => rfl) (foldUp_of_isLow hlow)
      (Nat.sub_lt (Nat.two_pow_pos _) (Nat.two_pow_pos _))⟩

end Sys2Proof.Machine

/-!
PROOFS. The reversals and the Gray codes (40_bit_primitives.md R120 to R123), bit by bit.
-/

namespace Sys2Proof.Machine

open Sys2Proof.Claims

section Bits
variable {n : Nat} (a : BitVec n)

theorem getLsbD_reverseBits (j : Nat) :
    (reverseBits a).getLsbD j = (decide (j < n) && a.getLsbD (n - 1 - j)) := patternOf_getLsbD ..

theorem getLsbD_reverseBytes (j : Nat) :
    (reverseBytes a).getLsbD j = (decide (j < n) && a.getLsbD (8 * (n / 8 - 1 - j / 8) + j % 8)) :=
  patternOf_getLsbD ..

theorem extractLsb'_reverseBytes {k : Nat} (hk : k < n / 8) :
    (reverseBytes a).extractLsb' (8 * k) 8 = a.extractLsb' (8 * (n / 8 - 1 - k)) 8 := by
  refine BitVec.eq_of_getLsbD_eq fun i hi => ?_
  rw [BitVec.getLsbD_extractLsb', BitVec.getLsbD_extractLsb', getLsbD_reverseBytes,
    decide_eq_true (show 8 * k + i < n by omega), Bool.true_and, show (8 * k + i) / 8 = k by omega,
    show (8 * k + i) % 8 = i by omega]

theorem getLsbD_toGray (j : Nat) : (toGray a).getLsbD j = (a.getLsbD j ^^ a.getLsbD (j + 1)) := by
  rw [toGray, BitVec.getLsbD_xor, BitVec.getLsbD_ushiftRight, Nat.add_comm]

/-- The parity of a set of bits changes with each 1-bit that is put in. -/
theorem parity_insert {t : Finset Nat} {p : Nat → Bool} {m : Nat} (hm : m ∉ t) :
    (((insert m t).filter fun i => p i = true).card % 2 == 1) =
      (((t.filter fun i => p i = true).card % 2 == 1) ^^ p m) := by
  rw [Finset.filter_insert]
  cases hp : p m with
  | false => simp
  | true =>
    rw [if_pos rfl, Finset.card_insert_of_notMem (by simp [hm])]
    grind

/-- Bit `j` of the exclusive or of the first `k` shifts is the parity of the bits `j` to `j + k - 1`. -/
theorem getLsbD_xorShifts (k j : Nat) : (xorShifts a k).getLsbD j =
    (((Finset.Ico j (j + k)).filter fun i => a.getLsbD i = true).card % 2 == 1) := by
  induction k with
  | zero => simp [xorShifts]
  | succ k ih =>
    rw [xorShifts, BitVec.getLsbD_xor, BitVec.getLsbD_ushiftRight, ih, ← Nat.add_assoc,
      ← Finset.insert_Ico_right_eq_Ico_add_one (Nat.le_add_right j k), parity_insert (by simp), Nat.add_comm k j]

theorem getLsbD_fromGray (j : Nat) : (fromGray a).getLsbD j =
    (((Finset.Ico j n).filter fun i => a.getLsbD i = true).card % 2 == 1) := by
  have hbits : ((Finset.Ico j (j + n)).filter fun i => a.getLsbD i = true) =
      (Finset.Ico j n).filter fun i => a.getLsbD i = true := by
    ext i
    simp only [Finset.mem_filter, Finset.mem_Ico]
    have hlt : a.getLsbD i = true → i < n := BitVec.lt_of_getLsbD
    grind
  rw [fromGray, getLsbD_xorShifts, hbits]

end Bits

/-- Settles O20, bit by bit. -/
theorem revbitsMirrorsTheWidth : Obligations.RevbitsMirrorsTheWidth := by
  unfold Obligations.RevbitsMirrorsTheWidth
  intro w rd rs1 s
  refine ⟨hasOpcode_of_packR rfl, _, endsWith_of_fieldsU s rfl fun _ => rfl, hasBits_setWidth fun j hj => ?_⟩
  rw [getLsbD_reverseBits, decide_eq_true hj, Bool.true_and]

/-- Settles O21: inside a byte the mirrored positions keep their order. -/
theorem revbytesMirrorsTheBytes : Obligations.RevbytesMirrorsTheBytes := by
  unfold Obligations.RevbytesMirrorsTheBytes
  intro w rd rs1 s
  refine ⟨hasOpcode_of_packR rfl, _, endsWith_of_fieldsU s rfl fun _ => rfl, ?_, fun k hk => ?_⟩
  · rw [BitVec.toNat_setWidth_of_le (widthBits_le w)]
    exact BitVec.isLt _
  · rw [BitVec.extractLsb'_setWidth_of_le (by have := widthBits_le w; omega), extractLsb'_reverseBytes _ hk]

/-- Settles O22: the shift puts bit `j + 1` at bit `j`, and 0 at the top. -/
theorem grayXorsAdjacentBits : Obligations.GrayXorsAdjacentBits := by
  unfold Obligations.GrayXorsAdjacentBits
  intro w rd rs1 s
  exact ⟨hasOpcode_of_packR rfl, _, endsWith_of_fieldsU s rfl fun _ => rfl,
    hasBits_setWidth fun j _ => getLsbD_toGray _ j⟩

/-- Settles O23: each further shift adds one bit to the parity. -/
theorem igrayIsTheParityOfTheBitsAbove : Obligations.IgrayIsTheParityOfTheBitsAbove := by
  unfold Obligations.IgrayIsTheParityOfTheBitsAbove
  intro w rd rs1 s
  exact ⟨hasOpcode_of_packR rfl, _, endsWith_of_fieldsU s rfl fun _ => rfl,
    hasBits_setWidth fun j _ => getLsbD_fromGray _ j⟩

end Sys2Proof.Machine

/-!
PROOFS. The laws of the counts and folds (40_bit_primitives.md R118), and the commands that undo one another (R120,
R121, R123).
-/

namespace Sys2Proof.Machine

open Sys2Proof.Claims

section Laws
variable {n k : Nat} {a : BitVec n}

/-! ### Counting the ones of a fold -/

theorem getLsbD_foldDown (h : IsTop a k) {j : Nat} (hj : j < n) : (foldDown a).getLsbD j = decide (j ≤ k) := by
  rw [foldDown_of_isTop h, patNat, BitVec.getLsbD_ofNat, Nat.testBit_two_pow_sub_one]
  grind

theorem getLsbD_foldUp (h : IsLow a k) {j : Nat} (hj : j < n) : (foldUp a).getLsbD j = decide (k ≤ j) := by
  have hpow : 2 ^ n - 2 ^ k = 2 ^ n - (2 ^ k - 1 + 1) := by rw [Nat.sub_add_cancel (Nat.two_pow_pos k)]
  have hlt : 2 ^ k - 1 < 2 ^ n :=
    Nat.sub_one_lt_of_le (Nat.two_pow_pos k) (Nat.pow_le_pow_right two_pos (isLow_lt h).le)
  rw [foldUp_of_isLow h, patNat, BitVec.getLsbD_ofNat, hpow, Nat.testBit_two_pow_sub_succ hlt,
    Nat.testBit_two_pow_sub_one]
  grind

theorem popCount_eq_of_forall {t : Finset Nat} (h : ∀ j, (j < n ∧ a.getLsbD j = true) ↔ j ∈ t) :
    popCount a = t.card := by
  rw [popCount_eq_card]
  congr 1
  ext j
  rw [Finset.mem_filter, Finset.mem_range, h]

theorem popCount_foldDown (h : IsTop a k) : popCount (foldDown a) = k + 1 := by
  rw [popCount_eq_of_forall (t := Finset.range (k + 1)), Finset.card_range]
  intro j
  have hk := isTop_lt h
  grind [getLsbD_foldDown h]

theorem popCount_foldUp (h : IsLow a k) : popCount (foldUp a) = n - k := by
  rw [popCount_eq_of_forall (t := Finset.Ico k n), Nat.card_Ico]
  intro j
  grind [getLsbD_foldUp h]

/-! ### Bounds -/

theorem bitLength_le (a : BitVec n) : bitLength a ≤ n := by
  by_cases ha : a = 0
  · simp [ha]
  · obtain ⟨k, htop⟩ := exists_isTop ha
    rw [bitLength_of_isTop htop]
    exact isTop_lt htop

theorem leadingZeros_add_bitLength (a : BitVec n) : leadingZeros a + bitLength a = n := by
  by_cases ha : a = 0
  · simp [ha]
  · obtain ⟨k, htop⟩ := exists_isTop ha
    have hk := isTop_lt htop
    rw [leadingZeros_of_isTop htop, bitLength_of_isTop htop]
    omega

theorem getLsbD_of_bitLength_le {j : Nat} (hj : bitLength a ≤ j) : a.getLsbD j = false := by
  by_cases ha : a = 0
  · simp [ha]
  · obtain ⟨k, htop⟩ := exists_isTop ha
    rw [bitLength_of_isTop htop] at hj
    exact htop.2 j hj

theorem popCount_le_bitLength (a : BitVec n) : popCount a ≤ bitLength a := by
  rw [popCount_eq_card, ← Finset.card_range (bitLength a)]
  refine Finset.card_le_card fun j hj => ?_
  have hbit := (Finset.mem_filter.mp hj).2
  rw [Finset.mem_range]
  by_contra hout
  simp [getLsbD_of_bitLength_le (not_lt.mp hout)] at hbit

/-! ### Reversing -/

theorem reverseBits_reverseBits (a : BitVec n) : reverseBits (reverseBits a) = a := by
  refine BitVec.eq_of_getLsbD_eq fun j hj => ?_
  rw [getLsbD_reverseBits, getLsbD_reverseBits, decide_eq_true hj, decide_eq_true (show n - 1 - j < n by omega),
    Bool.true_and, Bool.true_and, show n - 1 - (n - 1 - j) = j by omega]

theorem isTop_reverseBits (h : IsLow a k) : IsTop (reverseBits a) (n - 1 - k) := by
  have hk := isLow_lt h
  constructor
  · rw [getLsbD_reverseBits, show n - 1 - (n - 1 - k) = k by omega, h.1, decide_eq_true (by omega), Bool.true_and]
  · intro j hj
    by_cases hjn : j < n
    · rw [getLsbD_reverseBits, h.2 (n - 1 - j) (by omega), Bool.and_false]
    · exact BitVec.getLsbD_of_ge _ j (by omega)

@[simp] theorem reverseBits_zero : reverseBits 0#n = 0#n :=
  BitVec.eq_of_getLsbD_eq fun j _ => by simp [getLsbD_reverseBits]

theorem trailingZeros_eq_leadingZeros_reverseBits (a : BitVec n) :
    trailingZeros a = leadingZeros (reverseBits a) := by
  by_cases ha : a = 0
  · simp [ha]
  · obtain ⟨k, hlow⟩ := exists_isLow ha
    have hk := isLow_lt hlow
    rw [trailingZeros_of_isLow hlow, leadingZeros_of_isTop (isTop_reverseBits hlow)]
    omega

theorem reverseBytes_reverseBytes (hbytes : 8 ∣ n) (a : BitVec n) : reverseBytes (reverseBytes a) = a := by
  refine BitVec.eq_of_getLsbD_eq fun j hj => ?_
  have hmirror : 8 * (n / 8 - 1 - j / 8) + j % 8 < n := by omega
  rw [getLsbD_reverseBytes, getLsbD_reverseBytes, decide_eq_true hj, decide_eq_true hmirror, Bool.true_and,
    Bool.true_and]
  congr 1
  omega

/-! ### Gray codes -/

theorem xorShifts_toGray (a : BitVec n) (k : Nat) : xorShifts (toGray a) k = a ^^^ a >>> k := by
  induction k with
  | zero => simp [xorShifts]
  | succ k ih =>
    calc xorShifts (toGray a) k ^^^ toGray a >>> k
        = a ^^^ a >>> k ^^^ (a >>> k ^^^ a >>> 1 >>> k) := by rw [ih, toGray, BitVec.ushiftRight_xor_distrib]
      _ = a ^^^ a >>> (k + 1) := by
        rw [BitVec.xor_assoc, ← BitVec.xor_assoc (a >>> k), BitVec.xor_self, BitVec.zero_xor, ← BitVec.shiftRight_add,
          Nat.add_comm]

theorem toGray_xor (a b : BitVec n) : toGray (a ^^^ b) = toGray a ^^^ toGray b := by
  rw [toGray, toGray, toGray, BitVec.ushiftRight_xor_distrib]
  ac_rfl

theorem toGray_ushiftRight (a : BitVec n) (k : Nat) : toGray (a >>> k) = toGray a >>> k := by
  rw [toGray, toGray, BitVec.ushiftRight_xor_distrib, ← BitVec.shiftRight_add, ← BitVec.shiftRight_add, Nat.add_comm]

/-- The Gray code commutes with the exclusive or of shifts, since it is itself one. -/
theorem toGray_xorShifts (a : BitVec n) (k : Nat) : toGray (xorShifts a k) = xorShifts (toGray a) k := by
  induction k with
  | zero => simp [xorShifts, toGray]
  | succ k ih => rw [xorShifts, toGray_xor, toGray_ushiftRight, ih, xorShifts]

theorem fromGray_toGray (a : BitVec n) : fromGray (toGray a) = a := by
  rw [fromGray, xorShifts_toGray, BitVec.ushiftRight_eq_zero le_rfl, BitVec.xor_zero]

theorem toGray_fromGray (a : BitVec n) : toGray (fromGray a) = a := by
  rw [fromGray, toGray_xorShifts]
  exact fromGray_toGray a

end Laws

theorem eight_dvd_widthBits (w : Width) : 8 ∣ widthBits w := by cases w <;> decide

theorem toNat_patNat_two_pow {n k : Nat} (hk : k < n) : (patNat n (2 ^ k)).toNat = 2 ^ k := by
  rw [patNat, BitVec.toNat_ofNat, Nat.mod_eq_of_lt (Nat.pow_lt_pow_right one_lt_two hk)]

/-- Settles O34: the laws of R118 by the top and the low 1-bit, the inverses bit by bit and through the shifts. -/
theorem bitPrimitiveLaws : Obligations.BitPrimitiveLaws := by
  unfold Obligations.BitPrimitiveLaws
  intro w a
  refine ⟨fun ha => ?_, leadingZeros_add_bitLength a, fun ha => ⟨?_, ?_⟩, fun ha => ?_,
    ⟨popCount_le_bitLength a, bitLength_le a⟩, trailingZeros_eq_leadingZeros_reverseBits a,
    reverseBits_reverseBits a, reverseBytes_reverseBytes (eight_dvd_widthBits w) a, fromGray_toGray a,
    toGray_fromGray a⟩
  · obtain ⟨k, htop⟩ := exists_isTop ha
    rw [popCount_foldDown htop, bitLength_of_isTop htop]
  · obtain ⟨k, hlow⟩ := exists_isLow ha
    rw [isolateLow_of_isLow hlow, trailingZeros_of_isLow hlow, toNat_patNat_two_pow (isLow_lt hlow)]
  · obtain ⟨k, htop⟩ := exists_isTop ha
    rw [isolateHigh_of_isTop htop, bitLength_of_isTop htop, Nat.add_sub_cancel, toNat_patNat_two_pow (isTop_lt htop)]
  · obtain ⟨k, hlow⟩ := exists_isLow ha
    rw [popCount_foldUp hlow, trailingZeros_of_isLow hlow]

end Sys2Proof.Machine

/-!
PROOFS. How a command with two sources ends, and the number that its zero-extended result holds (30_encoding.md R77,
R78, 00_scope.md R8).
-/

namespace Sys2Proof.Machine

open Sys2Proof.Claims

section EndsB
variable {i : Instr} {w : Width} {rd rs1 rs2 : Reg} (s : State)

/-- The second operand of a command whose class reads RS2 as an operand (30_encoding.md R77). -/
theorem operandsFor_b (hw : (fieldsOf i).w = w) (hindex : (fieldsOf i).index = false)
    (hrs2 : (fieldsOf i).rs2 = some rs2) : (operandsFor i s).b.setWidth (widthBits w) = opB s rs2 w := by
  unfold opB
  cases hfly : s.inFlight with
  | some r => rw [operandsFor_inFlight i s r hfly]
  | none => simp [operandsFor_idle i s hfly, latch, hw, hindex, hrs2, fetchLow, setWidth_lowBits]

theorem argsOf_of_fieldsB (hfields : fieldsOf i = fieldsB w rd rs1 rs2) :
    ∃ c idx, argsOf (widthBits w) (operandsFor i s) = ⟨opA s rs1 w, opB s rs2 w, c, idx⟩ := by
  have hw : (fieldsOf i).w = w := by rw [hfields, fieldsB]
  rw [← operandsFor_a s hw (by rw [hfields, fieldsB]),
    ← operandsFor_b s hw (by rw [hfields, fieldsB]) (by rw [hfields, fieldsB])]
  exact ⟨_, _, rfl⟩

variable {s}

/-- A command of class B whose rule answers `res` on its two operands. -/
theorem endsWith_of_fieldsB (hfields : fieldsOf i = fieldsB w rd rs1 rs2) {res : BitVec (widthBits w)}
    (hrule : ∀ c idx, ruleOf i (widthBits w) ⟨opA s rs1 w, opB s rs2 w, c, idx⟩ = .ok res) :
    EndsWith i rd (res.setWidth 64) s := by
  obtain ⟨c, idx, hargs⟩ := argsOf_of_fieldsB s hfields
  refine endsWith_of_rule (by rw [hfields, fieldsB]) (by rw [hfields, fieldsB]) ?_
  rw [hargs, hrule]

/-- A command of class B whose rule answers an error on its two operands. -/
theorem endsInError_of_fieldsB (hfields : fieldsOf i = fieldsB w rd rs1 rs2) {code : ErrorCode}
    (hrule : ∀ c idx, ruleOf i (widthBits w) ⟨opA s rs1 w, opB s rs2 w, c, idx⟩ = .error code) :
    EndsInError i code s := by
  obtain ⟨c, idx, hargs⟩ := argsOf_of_fieldsB s hfields
  refine endsInError_of_rule (w := w) (by rw [hfields, fieldsB]) ?_
  rw [hargs, hrule]

end EndsB

/-! ### The number in a result -/

theorem toNat_setWidth_result {w : Width} (res : BitVec (widthBits w)) : (res.setWidth 64).toNat = res.toNat :=
  BitVec.toNat_setWidth_of_le (widthBits_le w)

theorem isUnsigned_setWidth {w : Width} {res : BitVec (widthBits w)} {m : Nat} (h : res.toNat = m) :
    IsUnsigned w (res.setWidth 64) m :=
  ⟨h ▸ res.isLt, (toNat_setWidth_result res).trans h⟩

theorem isSigned_setWidth {w : Width} {res : BitVec (widthBits w)} {z : Int} (h : res.toInt = z) :
    IsSigned w (res.setWidth 64) z := by
  refine ⟨toNat_setWidth_result res ▸ res.isLt, ?_⟩
  rw [BitVec.setWidth_setWidth_of_le _ (widthBits_le w), BitVec.setWidth_eq, h]

theorem toNat_patNat {n m : Nat} (h : m < 2 ^ n) : (patNat n m).toNat = m :=
  Nat.mod_eq_of_lt h

end Sys2Proof.Machine

/-!
PROOFS. The multiplier (41_muldiv.md R150 to R154): each command against the exact product.
-/

namespace Sys2Proof.Machine

open Sys2Proof.Claims

section Products
variable {n : Nat}

theorem ruleMul_eq (p : Args n) : ruleMul n p = .ok (p.a * p.b) := by
  simp [ruleMul, pat, uint_eq_toNat, BitVec.ofInt_mul]

theorem ruleMulh_eq (p : Args n) : ruleMulh n p = .ok (pat n (p.a.toInt * p.b.toInt / 2 ^ n)) := by
  rw [ruleMulh, sint_eq_toInt, sint_eq_toInt, Int.fdiv_eq_ediv_of_nonneg _ (by positivity)]

theorem ruleMulc_eq (p : Args n) : ruleMulc n p =
    if -(2 ^ (n - 1)) ≤ p.a.toInt * p.b.toInt ∧ p.a.toInt * p.b.toInt < 2 ^ (n - 1) then
      .ok (pat n (p.a.toInt * p.b.toInt))
    else .error .overflow := by
  rw [ruleMulc, sint_eq_toInt, sint_eq_toInt, ← ite_not]
  grind

theorem ruleMulcu_eq (p : Args n) : ruleMulcu n p =
    if p.a.toNat * p.b.toNat < 2 ^ n then .ok (patNat n (p.a.toNat * p.b.toNat)) else .error .overflow := by
  have hpos := Nat.two_pow_pos n
  rw [ruleMulcu, uint_eq_toNat, uint_eq_toNat, ← ite_not]
  grind

/-- The low half is the same for signed and unsigned operands: it differs from the signed product by a multiple of
`2^n` (41_muldiv.md R150). -/
theorem two_pow_dvd_signed_product_sub (a b : BitVec n) : (2 ^ n : Int) ∣ a.toInt * b.toInt - (a * b).toNat := by
  have hbmod : ((a * b).toNat : Int).bmod (2 ^ n) = (a.toInt * b.toInt).bmod (2 ^ n) := by
    rw [← BitVec.toInt_eq_toNat_bmod, BitVec.toInt_mul]
  have hmod : ((a * b).toNat : Int) ≡ a.toInt * b.toInt [ZMOD (2 ^ n : Nat)] := by
    rw [Int.ModEq, ← Int.bmod_emod, hbmod, Int.bmod_emod]
  exact_mod_cast hmod.dvd

/-- The high half of a signed product fits in the width: the product is at most `2^(2n-2)` in absolute value
(41_muldiv.md R151). -/
theorem toInt_pat_high_half (hn : 0 < n) (a b : BitVec n) :
    (pat n (a.toInt * b.toInt / 2 ^ n)).toInt = a.toInt * b.toInt / 2 ^ n := by
  have hpos : (0 : Int) < 2 ^ n := by positivity
  have hbound : (2 : Int) ^ (n * 2 - 2) < 2 ^ (n - 1) * 2 ^ n := by
    rw [← pow_add]
    exact pow_lt_pow_right₀ (by norm_num) (by omega)
  have hlow : -2 ^ (n * 2 - 2) ≤ a.toInt * b.toInt := BitVec.le_toInt_mul_toInt
  have hhigh : a.toInt * b.toInt ≤ 2 ^ (n * 2 - 2) := BitVec.toInt_mul_toInt_le
  refine BitVec.toInt_ofInt_eq_self hn ?_ ?_
  · rw [Int.le_ediv_iff_mul_le hpos]
    linarith
  · rw [Int.ediv_lt_iff_lt_mul hpos]
    linarith

theorem toNat_patNat_high_half (a b : BitVec n) :
    (patNat n (a.toNat * b.toNat / 2 ^ n)).toNat = a.toNat * b.toNat / 2 ^ n :=
  toNat_patNat (Nat.div_lt_of_lt_mul (Nat.mul_lt_mul'' a.isLt b.isLt))

end Products

/-- Settles O24: the result is the product of the patterns, which the signed operands give as well. -/
theorem mulWritesTheLowHalf : Obligations.MulWritesTheLowHalf := by
  unfold Obligations.MulWritesTheLowHalf
  intro w rd rs1 rs2 s
  have hends : EndsWith (.mul w rd rs1 rs2) rd ((opA s rs1 w * opB s rs2 w).setWidth 64) s :=
    endsWith_of_fieldsB rfl fun _ _ => ruleMul_eq _
  refine ⟨hasOpcode_of_packR rfl, _, hends, isUnsigned_setWidth (BitVec.toNat_mul ..), ?_⟩
  rw [toNat_setWidth_result]
  exact two_pow_dvd_signed_product_sub ..

/-- Settles O25: floor division by `2^w` splits the signed product into its halves. -/
theorem mulhWritesTheSignedHighHalf : Obligations.MulhWritesTheSignedHighHalf := by
  unfold Obligations.MulhWritesTheSignedHighHalf
  intro w rd rs1 rs2 s
  have hpos : (0 : Int) < 2 ^ widthBits w := by positivity
  obtain ⟨lo, hlo⟩ := Int.eq_ofNat_of_zero_le
    (Int.emod_nonneg ((opA s rs1 w).toInt * (opB s rs2 w).toInt) hpos.ne')
  have hhigh := toInt_pat_high_half (widthBits_pos w) (opA s rs1 w) (opB s rs2 w)
  refine ⟨hasOpcode_of_packR rfl, _, lo, _, ?_, ?_, isSigned_setWidth hhigh,
    endsWith_of_fieldsB rfl fun _ _ => ruleMulh_eq _⟩
  · exact_mod_cast hlo ▸ Int.emod_lt_of_pos _ hpos
  · rw [← hlo, Int.ediv_mul_add_emod]

/-- Settles O26: division by `2^w` splits the unsigned product into its halves. -/
theorem mulhuWritesTheUnsignedHighHalf : Obligations.MulhuWritesTheUnsignedHighHalf := by
  unfold Obligations.MulhuWritesTheUnsignedHighHalf
  intro w rd rs1 rs2 s
  exact ⟨hasOpcode_of_packR rfl, _, _, _, Nat.mod_lt _ (Nat.two_pow_pos _), (Nat.div_add_mod' ..).symm,
    isUnsigned_setWidth (toNat_patNat_high_half ..), endsWith_of_fieldsB rfl fun _ _ => rfl⟩

/-- Settles O27: a product that fits is the number its pattern holds. -/
theorem mulcChecksTheSignedProduct : Obligations.MulcChecksTheSignedProduct := by
  unfold Obligations.MulcChecksTheSignedProduct
  intro w rd rs1 rs2 s
  refine ⟨hasOpcode_of_packR rfl, fun hfits => ?_, fun hover => ?_⟩
  · have hvalue := BitVec.toInt_ofInt_eq_self (widthBits_pos w) hfits.1 hfits.2
    exact ⟨_, isSigned_setWidth hvalue, endsWith_of_fieldsB rfl fun _ _ => (ruleMulc_eq _).trans (if_pos hfits)⟩
  · have hnot := not_and_or.mpr (hover.imp not_le.mpr not_lt.mpr)
    exact endsInError_of_fieldsB rfl fun _ _ => (ruleMulc_eq _).trans (if_neg hnot)

/-- Settles O28: a product below `2^w` is the number its pattern holds. -/
theorem mulcuChecksTheUnsignedProduct : Obligations.MulcuChecksTheUnsignedProduct := by
  unfold Obligations.MulcuChecksTheUnsignedProduct
  intro w rd rs1 rs2 s
  refine ⟨hasOpcode_of_packR rfl, fun hfits => ?_, fun hover => ?_⟩
  · exact ⟨_, isUnsigned_setWidth (toNat_patNat hfits),
      endsWith_of_fieldsB rfl fun _ _ => (ruleMulcu_eq _).trans (if_pos hfits)⟩
  · exact endsInError_of_fieldsB rfl fun _ _ => (ruleMulcu_eq _).trans (if_neg hover.not_gt)

end Sys2Proof.Machine

/-!
PROOFS. The divider (41_muldiv.md R155 to R158, R161): the rules compute the truncating division of two's-complement
patterns, or the division of unsigned numbers.
-/

namespace Sys2Proof.Machine

open Sys2Proof.Claims

section Quotients
variable {n : Nat}

/-- The operands of the one quotient that does not fit are the least pattern and the pattern of all ones. -/
theorem ne_intMin_or_ne_neg_one (hn : 0 < n) {a b : BitVec n} (h : ¬(a.toInt = -(2 ^ (n - 1)) ∧ b.toInt = -1)) :
    a ≠ BitVec.intMin n ∨ b ≠ -1#n := by
  by_contra! hboth
  obtain ⟨rfl, rfl⟩ := hboth
  refine h ⟨BitVec.toInt_intMin_of_pos hn, ?_⟩
  rw [BitVec.neg_one_eq_allOnes, BitVec.toInt_allOnes, if_pos hn]

theorem toInt_pat_tdiv (hn : 0 < n) {a b : BitVec n} (h : ¬(a.toInt = -(2 ^ (n - 1)) ∧ b.toInt = -1)) :
    (pat n (a.toInt.tdiv b.toInt)).toInt = a.toInt.tdiv b.toInt := by
  rw [pat, ← BitVec.toInt_sdiv_of_ne_or_ne a b (ne_intMin_or_ne_neg_one hn h), BitVec.ofInt_toInt]

theorem ruleDiv_eq (p : Args n) : ruleDiv n p =
    if p.b.toInt = 0 then .error .divZero
    else if p.a.toInt = -(2 ^ (n - 1)) ∧ p.b.toInt = -1 then .error .overflow
    else .ok (pat n (p.a.toInt.tdiv p.b.toInt)) := by
  rw [ruleDiv, sint_eq_toInt, sint_eq_toInt]

/-- The special case of `-2^(n-1)` by `-1` is no exception to the truncating remainder (41_muldiv.md R157). -/
theorem ruleRem_eq (p : Args n) : ruleRem n p =
    if p.b.toInt = 0 then .error .divZero else .ok (p.a.srem p.b) := by
  have hsrem : pat n (p.a.toInt.tmod p.b.toInt) = p.a.srem p.b := by
    rw [pat, ← BitVec.toInt_srem, BitVec.ofInt_toInt]
  rw [ruleRem, sint_eq_toInt, sint_eq_toInt, ← Int.tmod_def, hsrem]
  refine if_congr Iff.rfl rfl (ite_eq_right_iff.mpr fun hover => ?_)
  rw [← hsrem, hover.2, Int.tmod_neg, Int.tmod_one]
  rfl

/-- The library's truncating division is the one that 41_muldiv.md R155 and R157 describe. -/
theorem isTruncDiv_tdiv_tmod (a : Int) {b : Int} (hb : b ≠ 0) : IsTruncDiv a b (a.tdiv b) (a.tmod b) := by
  refine ⟨(Int.mul_tdiv_add_tmod a b).symm, ?_, ?_⟩
  · rw [Int.abs_eq_natAbs, Int.abs_eq_natAbs, Int.natAbs_tmod]
    exact_mod_cast Nat.mod_lt _ (Int.natAbs_pos.mpr hb)
  · by_cases hdvd : b ∣ a
    · exact .inl (Int.tmod_eq_zero_of_dvd hdvd)
    · exact .inr (by rw [Int.sign_tmod, if_neg hdvd])

end Quotients

/-- Settles O29: outside the two errors the truncated quotient fits in the width. -/
theorem divTruncatesTowardZero : Obligations.DivTruncatesTowardZero := by
  unfold Obligations.DivTruncatesTowardZero
  intro w rd rs1 rs2 s
  refine ⟨hasOpcode_of_packR rfl, fun hzero => ?_, fun hover => ?_, fun hne hnot => ?_⟩
  · exact endsInError_of_fieldsB rfl fun _ _ => (ruleDiv_eq _).trans (if_pos hzero)
  · have hne : (opB s rs2 w).toInt ≠ 0 := by rw [hover.2]; decide
    exact endsInError_of_fieldsB rfl fun _ _ => (ruleDiv_eq _).trans ((if_neg hne).trans (if_pos hover))
  · exact ⟨_, _, _, isTruncDiv_tdiv_tmod _ hne, isSigned_setWidth (toInt_pat_tdiv (widthBits_pos w) hnot),
      endsWith_of_fieldsB rfl fun _ _ => (ruleDiv_eq _).trans ((if_neg hne).trans (if_neg hnot))⟩

/-- Settles O30: the remainder of the patterns is the truncating remainder of their signed values. -/
theorem remHasTheSignOfTheDividend : Obligations.RemHasTheSignOfTheDividend := by
  unfold Obligations.RemHasTheSignOfTheDividend
  intro w rd rs1 rs2 s
  refine ⟨hasOpcode_of_packR rfl, fun hzero => ?_, fun hne => ?_⟩
  · exact endsInError_of_fieldsB rfl fun _ _ => (ruleRem_eq _).trans (if_pos hzero)
  · exact ⟨_, _, _, isTruncDiv_tdiv_tmod _ hne, isSigned_setWidth (BitVec.toInt_srem ..),
      endsWith_of_fieldsB rfl fun _ _ => (ruleRem_eq _).trans (if_neg hne)⟩

/-- Settles O31: quotient and remainder are at most the dividend, so both fit in the width. -/
theorem divuAndRemuDivideUnsigned : Obligations.DivuAndRemuDivideUnsigned := by
  unfold Obligations.DivuAndRemuDivideUnsigned
  intro w rd rs1 rs2 s
  refine ⟨hasOpcode_of_packR rfl, hasOpcode_of_packR rfl, fun hzero => ⟨?_, ?_⟩, fun hne => ?_⟩
  · exact endsInError_of_fieldsB rfl fun _ _ => if_pos hzero
  · exact endsInError_of_fieldsB rfl fun _ _ => if_pos hzero
  · have hquot := (Nat.div_le_self (opA s rs1 w).toNat (opB s rs2 w).toNat).trans_lt (opA s rs1 w).isLt
    have hrem := (Nat.mod_le (opA s rs1 w).toNat (opB s rs2 w).toNat).trans_lt (opA s rs1 w).isLt
    exact ⟨_, _, _, _, (Nat.div_add_mod ..).symm, Nat.mod_lt _ (Nat.pos_of_ne_zero hne),
      isUnsigned_setWidth (toNat_patNat hquot), isUnsigned_setWidth (toNat_patNat hrem),
      endsWith_of_fieldsB rfl fun _ _ => if_neg hne, endsWith_of_fieldsB rfl fun _ _ => if_neg hne⟩

end Sys2Proof.Machine

/-!
PROOFS. Modular multiplication and exponentiation (42_modular.md R180, R181): how a command with three sources ends, and
the square-and-multiply loop against the power.
-/

namespace Sys2Proof.Machine

open Sys2Proof.Claims

section EndsT
variable {i : Instr} {w : Width} {rd rs1 rs2 rs3 : Reg} (s : State)

/-- The third operand of a command whose class reads RS3 (30_encoding.md R77). -/
theorem operandsFor_c (hw : (fieldsOf i).w = w) (hrs3 : (fieldsOf i).rs3 = some rs3) :
    (operandsFor i s).c.setWidth (widthBits w) = opC s rs3 w := by
  unfold opC
  cases hfly : s.inFlight with
  | some r => rw [operandsFor_inFlight i s r hfly]
  | none => simp [operandsFor_idle i s hfly, latch, hw, hrs3, fetchLow, setWidth_lowBits]

theorem argsOf_of_fieldsT (hfields : fieldsOf i = fieldsT w rd rs1 rs2 rs3) :
    ∃ idx, argsOf (widthBits w) (operandsFor i s) = ⟨opA s rs1 w, opB s rs2 w, opC s rs3 w, idx⟩ := by
  have hw : (fieldsOf i).w = w := by rw [hfields, fieldsT]
  rw [← operandsFor_a s hw (by rw [hfields, fieldsT]),
    ← operandsFor_b s hw (by rw [hfields, fieldsT]) (by rw [hfields, fieldsT]),
    ← operandsFor_c s hw (by rw [hfields, fieldsT])]
  exact ⟨_, rfl⟩

variable {s}

/-- A command of class T whose rule answers `res` on its three operands. -/
theorem endsWith_of_fieldsT (hfields : fieldsOf i = fieldsT w rd rs1 rs2 rs3) {res : BitVec (widthBits w)}
    (hrule : ∀ idx, ruleOf i (widthBits w) ⟨opA s rs1 w, opB s rs2 w, opC s rs3 w, idx⟩ = .ok res) :
    EndsWith i rd (res.setWidth 64) s := by
  obtain ⟨idx, hargs⟩ := argsOf_of_fieldsT s hfields
  refine endsWith_of_rule (by rw [hfields, fieldsT]) (by rw [hfields, fieldsT]) ?_
  rw [hargs, hrule]

/-- A command of class T whose rule answers an error on its three operands. -/
theorem endsInError_of_fieldsT (hfields : fieldsOf i = fieldsT w rd rs1 rs2 rs3) {code : ErrorCode}
    (hrule : ∀ idx, ruleOf i (widthBits w) ⟨opA s rs1 w, opB s rs2 w, opC s rs3 w, idx⟩ = .error code) :
    EndsInError i code s := by
  obtain ⟨idx, hargs⟩ := argsOf_of_fieldsT s hfields
  refine endsInError_of_rule (w := w) (by rw [hfields, fieldsT]) ?_
  rw [hargs, hrule]

end EndsT

/-! ### Square and multiply -/

theorem mulModNat_mod_mod (x y m : Nat) : mulModNat (x % m) (y % m) m = x * y % m := (Nat.mul_mod x y m).symm

/-- One turn of the loop squares the intermediate power and multiplies by the base when the exponent bit is 1. -/
theorem powModLoop_succ (base e m k r : Nat) : powModLoop base e m (k + 1) r =
    powModLoop base e m k (r ^ 2 * base ^ (e.testBit k).toNat % m) := by
  rw [powModLoop]
  cases e.testBit k <;> simp [mulModNat, pow_two, Nat.mod_mul_mod]

/-- With `k` turns left the loop still raises the residue it has to the power `2^k` and multiplies in the power of the
base that the low `k` bits of the exponent name. -/
theorem powModLoop_eq (base e : Nat) {m : Nat} (k : Nat) {r : Nat} (hr : r < m) :
    powModLoop base e m k r = r ^ 2 ^ k * base ^ (e % 2 ^ k) % m := by
  induction k generalizing r with
  | zero => simp [powModLoop, Nat.mod_one, Nat.mod_eq_of_lt hr]
  | succ k ih =>
    have hlow : e % 2 ^ (k + 1) = (e.testBit k).toNat * 2 ^ k + e % 2 ^ k := by
      rw [Nat.mod_pow_succ, Nat.toNat_testBit, mul_comm, add_comm]
    calc powModLoop base e m (k + 1) r
        = (r ^ 2 * base ^ (e.testBit k).toNat % m) ^ 2 ^ k * base ^ (e % 2 ^ k) % m := by
          rw [powModLoop_succ, ih (Nat.mod_lt _ (Nat.zero_lt_of_lt hr))]
      _ = (r ^ 2 * base ^ (e.testBit k).toNat) ^ 2 ^ k * base ^ (e % 2 ^ k) % m :=
          ((Nat.mod_modEq _ m).pow _).mul_right _
      _ = r ^ 2 ^ (k + 1) * base ^ (e % 2 ^ (k + 1)) % m := by
          rw [hlow, mul_pow, ← pow_mul, ← pow_mul, mul_assoc, ← pow_add, pow_succ' 2 k]

/-- From 1, over all bits of the exponent, the loop computes the power (42_modular.md R181). -/
theorem powModLoop_one {base e m k : Nat} (hm : 1 < m) (he : e < 2 ^ k) : powModLoop base e m k 1 = base ^ e % m := by
  rw [powModLoop_eq base e k hm, one_pow, one_mul, Nat.mod_eq_of_lt he]

section Rules
variable {n : Nat}

theorem ruleMulmod_eq (p : Args n) : ruleMulmod n p =
    if uint p.c = 0 then .error .divZero else .ok (patNat n (uint p.a * uint p.b % uint p.c)) := by
  rw [ruleMulmod, mulModNat_mod_mod]

/-- The special case of modulus 1 is no exception to the residue of the power (42_modular.md R181). -/
theorem rulePowmod_eq (p : Args n) : rulePowmod n p =
    if uint p.c = 0 then .error .divZero else .ok (patNat n (uint p.a ^ uint p.b % uint p.c)) := by
  rw [rulePowmod]
  split_ifs with hzero hone
  · rfl
  · rw [hone, Nat.mod_one]
    rfl
  · have hm : 1 < uint p.c := by omega
    have he : uint p.b < 2 ^ n := p.b.isLt
    rw [powModLoop_one hm he]

/-- A residue fits in the width because it is below the modulus, which does. -/
theorem toNat_patNat_mod {c : BitVec n} (hc : c.toNat ≠ 0) (m : Nat) :
    (patNat n (m % c.toNat)).toNat = m % c.toNat :=
  toNat_patNat ((Nat.mod_lt m (Nat.pos_of_ne_zero hc)).trans c.isLt)

end Rules

/-- Settles O32: reducing the factors first does not change the residue of the product. -/
theorem mulmodWritesTheExactResidue : Obligations.MulmodWritesTheExactResidue := by
  unfold Obligations.MulmodWritesTheExactResidue
  intro w rd rs1 rs2 rs3 s
  refine ⟨hasOpcode_of_packR rfl, fun hzero => ?_, fun hne => ?_⟩
  · exact endsInError_of_fieldsT rfl fun _ => (ruleMulmod_eq _).trans (if_pos hzero)
  · have hres := isUnsigned_setWidth (toNat_patNat_mod hne ((opA s rs1 w).toNat * (opB s rs2 w).toNat))
    refine ⟨_, hres, ?_, endsWith_of_fieldsT rfl fun _ => (ruleMulmod_eq _).trans (if_neg hne)⟩
    exact hres.2.trans_lt (Nat.mod_lt _ (Nat.pos_of_ne_zero hne))

/-- Settles O33: the loop over the exponent's bits is the power, and modulus 1 leaves only the residue 0. -/
theorem powmodWritesTheExactPower : Obligations.PowmodWritesTheExactPower := by
  unfold Obligations.PowmodWritesTheExactPower
  intro w rd rs1 rs2 rs3 s
  refine ⟨hasOpcode_of_packR rfl, fun hzero => ?_, fun hne => ?_⟩
  · exact endsInError_of_fieldsT rfl fun _ => (rulePowmod_eq _).trans (if_pos hzero)
  · exact ⟨_, isUnsigned_setWidth (toNat_patNat_mod hne _),
      endsWith_of_fieldsT rfl fun _ => (rulePowmod_eq _).trans (if_neg hne)⟩

end Sys2Proof.Machine

/-!
PROOFS. The data movement commands (43_data_movement.md R200, R201): the rule of MOV keeps its operand, and that of LI
reads no operand and cuts the sign-extended immediate to the width (30_encoding.md R76).
-/

namespace Sys2Proof.Machine

open Sys2Proof.Claims

theorem hasOpcode_of_packI {i : Instr} {imm : BitVec 16} {rd : Reg} {w : Width} {opc : BitVec 8}
    (h : encode i = packI imm rd w opc) : HasOpcode i opc := by
  rw [HasOpcode, h]
  exact opcField_packI ..

/-- Sign extension repeats the top bit: above it, every bit is read at the top bit's position. -/
theorem getLsbD_signExtend_eq_min {m n j : Nat} (a : BitVec m) (hj : j < n) :
    (a.signExtend n).getLsbD j = a.getLsbD (min j (m - 1)) := by
  rw [BitVec.getLsbD_signExtend, decide_eq_true hj, Bool.true_and]
  split_ifs with hlow
  · rw [min_eq_left (by omega)]
  · rw [min_eq_right (by omega), BitVec.msb_eq_getLsbD_last]

/-- Cutting at the width keeps the bits below it, since no width exceeds the 64 bits extended to. -/
theorem getLsbD_setWidth_signExtend {w : Width} {j : Nat} (imm : BitVec 16) (hj : j < widthBits w) :
    ((imm.signExtend 64).setWidth (widthBits w)).getLsbD j = imm.getLsbD (min j 15) := by
  rw [BitVec.getLsbD_setWidth, decide_eq_true hj, Bool.true_and,
    getLsbD_signExtend_eq_min imm (hj.trans_le (widthBits_le w))]

/-- Settles O6: the result is the operand itself. -/
theorem movWritesTheLowBits : Obligations.MovWritesTheLowBits := by
  unfold Obligations.MovWritesTheLowBits
  intro w rd rs1 s
  have hends : EndsWith (.mov w rd rs1) rd ((opA s rs1 w).setWidth 64) s :=
    endsWith_of_fieldsU (op := id) s rfl fun _ => rfl
  exact ⟨hasOpcode_of_packR rfl, _, hends, hasBits_setWidth fun _ _ => rfl⟩

/-- Settles O7: the result does not depend on the latched operands. -/
theorem liWritesTheSignExtendedImmediate : Obligations.LiWritesTheSignExtendedImmediate := by
  unfold Obligations.LiWritesTheSignExtendedImmediate
  intro w rd imm s
  have hends : EndsWith (.li w rd imm) rd (((imm.signExtend 64).setWidth (widthBits w)).setWidth 64) s :=
    endsWith_of_rule rfl rfl rfl
  exact ⟨hasOpcode_of_packI rfl, _, hends, hasBits_setWidth fun _ => getLsbD_setWidth_signExtend imm⟩

end Sys2Proof.Machine

/-!
PROOFS. No cycle of a coherent machine stops (60_exceptions.md R210, R216, 70_reset_and_hazards.md R252): the end of a
command is a next state, and the one fault of the step needs a word in flight that no CMD write issues.
-/

namespace Sys2Proof.Machine

/-- An error at the end of a command is recorded, not trapped (60_exceptions.md R210). -/
theorem exec_answers (i : Instr) (s : State) : ∃ t, exec i s = .next t := by
  rcases exec_cases i s with ⟨v, -, hexec⟩ | ⟨code, -, hexec⟩
  · exact ⟨_, hexec⟩
  · exact ⟨_, hexec⟩

/-- The word in flight is a command, since an illegal word never becomes one in flight (60_exceptions.md R216). -/
theorem Coherent.decode_ne_error {s : State} (hs : Coherent s) {r : InFlight} (hr : s.inFlight = some r)
    (e : DecodeError) : decode r.word ≠ .error e := by
  obtain ⟨i, hd, -, -⟩ := hs.record r hr
  simp [hd]

/-- Settles O54, by the outcomes of one cycle: the fault is left over, and the record it needs is the coherent one that
was in flight when the cycle began. -/
theorem noStopFromTheInvariant : Obligations.NoStopFromTheInvariant := by
  unfold Obligations.NoStopFromTheInvariant
  intro s hs
  rcases step_cases s with ⟨-, hstep⟩ | ⟨-, hstep⟩ | ⟨r, -, -, -, hstep⟩ | ⟨r, i, -, -, -, -, hstep⟩ |
    ⟨r, e, hbusy, hhost, -, hd, -⟩
  · exact ⟨_, hstep⟩
  · exact ⟨_, hstep⟩
  · exact ⟨_, hstep⟩
  · exact hstep ▸ exec_answers i (hostPhase s)
  · exact absurd hd (hs.decode_ne_error (inFlight_of_hostPhase hbusy hhost) e)

end Sys2Proof.Machine

/-!
PROOFS. The life of a command (70_reset_and_hazards.md R243, R250): its issue by a CMD write, its last cycle, its
outcome, and the soft reset that abandons it.
-/

namespace Sys2Proof.Machine

open Sys2Proof.Claims

/-- With nothing in flight the engine adds nothing to the outside's part of the cycle. -/
theorem step_of_idle {s : State} (hidle : s.inFlight = none) : step s = .next (hostPhase s) := by
  rw [step, engineEvent_idle s _ hidle]

/-- A command abandoned in the cycle is not ended in it (60_exceptions.md R219). -/
theorem step_of_abandoned {s : State} (hhost : (hostPhase s).inFlight = none) : step s = .next (hostPhase s) := by
  rw [step, engineEvent_abandoned s _ hhost]

/-- Settles O37: where the outside leaves the record in flight, the engine counts it down or ends it. -/
theorem stepRunsTheCommandThatEnds : Obligations.StepRunsTheCommandThatEnds := by
  unfold Obligations.StepRunsTheCommandThatEnds
  intro s r i hr hd
  refine ⟨fun hrem hport hinputs => ?_, fun hrem hport hinputs => ?_, fun hrem hfly => ?_⟩
  · obtain ⟨-, -, hends⟩ := stepsBy_of_hostPhase (hostPhase_of_nothing_waiting hport hinputs) rfl
    exact hends r i hr hrem hd
  · obtain ⟨-, hcounts, -⟩ := stepsBy_of_hostPhase (hostPhase_of_nothing_waiting hport hinputs) rfl
    exact hcounts r hr hrem
  · obtain ⟨-, -, hends⟩ := stepsBy_of_hostPhase (s := s) rfl (hfly.trans hr.symm)
    exact hends r i hr hrem hd

/-- Settles O35: while the record is in flight the command evaluates its rule on the record's operands and on nothing
else of the state. -/
theorem outcomeIsFixedByWordAndOperands : Obligations.OutcomeIsFixedByWordAndOperands := by
  unfold Obligations.OutcomeIsFixedByWordAndOperands
  intro i r
  have heval {s : State} (hr : s.inFlight = some r) :
      evaluate i (ruleOf i) (operandsFor i s) = evaluate i (ruleOf i) r.operands := by
    rw [operandsFor_inFlight i s r hr]
  rw [show (encode i).extractLsb' 10 4 = (fieldsOf i).rd from rdField_encode i]
  cases hout : evaluate i (ruleOf i) r.operands with
  | ok v =>
    refine .inl ⟨v, fun s hr => ?_⟩
    exact (exec_eq_runCommand i s).trans (runCommand_ok ((heval hr).trans hout))
  | error code =>
    refine .inr ⟨code, evaluate_error i r.operands code hout, fun s hr => ?_⟩
    exact (exec_eq_runCommand i s).trans (runCommand_error ((heval hr).trans hout))

/-- Settles O39: the write is performed, so nothing is in flight, and `issueOrDrop` issues the word with its latency. -/
theorem cmdWriteIssuesTheCommand : Obligations.CmdWriteIssuesTheCommand := by
  unfold Obligations.CmdWriteIssuesTheCommand
  intro s v i hp herr hd
  have hissue : issueOrDrop (v.setWidth 32) (answered s ⟨false, 0⟩) =
      issue i (v.setWidth 32) (answered s ⟨false, 0⟩) := by
    simp [issueOrDrop, answered, herr, hd]
  refine ⟨latencyOf i (latch i s), latencyOf_pos i _, ?_⟩
  rw [step_of_idle (idle_of_cmdWrite hp), hostPhase_cmdWrite hp, hissue]
  rfl

/-- Settles O44: the write takes the record away, so the engine has no command to end. -/
theorem softResetAbandonsTheCommand : Obligations.SoftResetAbandonsTheCommand := by
  unfold Obligations.SoftResetAbandonsTheCommand
  intro s v hp h31
  have hhost : hostPhase s = softReset (answered s ⟨false, 0⟩) := (hostPhase_ctrlWrite hp).trans (if_pos h31)
  rw [step_of_abandoned (by rw [hhost, softReset_inFlight]), hhost]
  rfl

end Sys2Proof.Machine

/-!
PROOFS. The interlock (70_reset_and_hazards.md R251): which accesses are held while a command is in flight, and what a
cycle with a held access and one with a performed access do.
-/

namespace Sys2Proof.Machine

open Sys2Proof.Claims

/-! ## Which accesses are held -/

/-- Whether an access is held depends on BUSY alone. -/
theorem held_congr {s t : State} (h : busy s = busy t) (a : HostAccess) : held s a = held t a := by
  simp [held, h]

theorem held_of_idle {s : State} (hidle : s.inFlight = none) (a : HostAccess) : held s a = false := by
  simp [held, busy, hidle]

theorem exists_offset_size (a : HostAccess) : ∃ off size, a = .read off size ∨ ∃ v, a = .write off size v := by
  cases a with
  | read off size => exact ⟨off, size, .inl rfl⟩
  | write off size v => exact ⟨off, size, .inr ⟨v, rfl⟩⟩

/-- With a command in flight the accepted accesses to operand registers and the accepted CMD writes are held
(70_reset_and_hazards.md R251). -/
theorem held_iff {s : State} (hfly : s.inFlight ≠ none) {a : HostAccess} {off : BitVec 8} {size : AccessSize}
    (ha : a = .read off size ∨ ∃ v, a = .write off size v) :
    held s a = true ↔
      accepted off size = true ∧ (off.toNat < 0x80 ∨ (off = 0x80#8 ∧ ∃ v, a = .write off size v)) := by
  have hbusy : busy s = true := Option.isSome_iff_ne_none.mpr hfly
  rcases ha with rfl | ⟨v, rfl⟩
  · simp [held, hbusy]
  · simp [held, hbusy, le_iff_lt_or_eq, ← BitVec.toNat_inj]

/-- Refused accesses, those behind CMD and reads of CMD are not held (70_reset_and_hazards.md R251). -/
theorem held_eq_false_of_elsewhere {s : State} (hfly : s.inFlight ≠ none) {a : HostAccess} {off : BitVec 8}
    {size : AccessSize} (ha : a = .read off size ∨ ∃ v, a = .write off size v)
    (hwhere : accepted off size = false ∨ 0x80 < off.toNat ∨ a = .read 0x80#8 size) : held s a = false := by
  rw [← Bool.not_eq_true, held_iff hfly ha]
  rintro ⟨hacc, hheld⟩
  rcases hwhere with hrefused | hbehind | rfl
  · simp [hrefused] at hacc
  · rcases hheld with hlow | ⟨rfl, -⟩
    · omega
    · simp at hbehind
  · obtain rfl : off = 0x80#8 := by simpa [eq_comm] using ha
    simp at hheld

/-! ## The cycle of the oldest access offered -/

section Offered
variable {s : State} {a : HostAccess} {rest : List HostAccess}

theorem resetIn_of_offered (hoff : offered s = a :: rest) : resetIn s = false := by
  cases hi : s.inputs with
  | nil => simp [resetIn, hi]
  | cons input later =>
    cases input with
    | quiet | access => simp [resetIn, hi]
    | reset keep => simp [offered, hi] at hoff

theorem performedIn_of_held (hoff : offered s = a :: rest) (hheld : held s a = true) : performedIn s = none := by
  simp [performedIn, hoff, hheld]

theorem performedIn_of_not_held (hoff : offered s = a :: rest) (hheld : held s a = false) :
    performedIn s = some a := by
  simp [performedIn, hoff, hheld]

/-- A held access stays at the port with the later ones behind it, and changes nothing
(70_reset_and_hazards.md R251). -/
theorem hostPhase_held (hoff : offered s = a :: rest) (hheld : held s a = true) :
    hostPhase s = { s with port := a :: rest, inputs := s.inputs.tail, response := none } := by
  rw [hostPhase_noAccess s (performedIn_of_held hoff hheld) (resetIn_of_offered hoff), hoff]

end Offered

/-! ## The cycle of a performed access -/

theorem writeOperandWindow_port (s : State) (off : BitVec 8) (size : AccessSize) (v : Word) :
    (writeOperandWindow s off size v).port = s.port := by
  obtain ⟨new, hnew⟩ := writeOperandWindow_cases s off size v
  rw [hnew, setOperandReg_port]

theorem issueOrDrop_port (word : CmdWord) (s : State) : (issueOrDrop word s).port = s.port := by
  rcases issueOrDrop_cases word s with ⟨-, h⟩ | ⟨-, i, -, h⟩ | ⟨-, e, -, h⟩ <;> rw [h] <;> rfl

theorem writeCtrl_port (v : BitVec 32) (s : State) : (writeCtrl v s).port = s.port := by
  rcases writeCtrl_cases v s with ⟨-, h⟩ | ⟨-, h⟩ <;> rw [h] <;> rfl

theorem writeWindow_port (s : State) (off : BitVec 8) (size : AccessSize) (v : Word) :
    (writeWindow s off size v).port = s.port := by
  rcases writeWindow_cases s off size v with ⟨-, h⟩ | ⟨-, h⟩ | ⟨-, h⟩ | ⟨-, h⟩ | ⟨-, h⟩ <;> rw [h]
  · exact writeOperandWindow_port s off size v
  · exact issueOrDrop_port _ s
  · exact clearStatus_port _ s
  · exact writeCtrl_port _ s

theorem perform_port (a : HostAccess) (s : State) : (perform a s).port = s.port := by
  rcases perform_cases a s with ⟨_, _, -, -, h⟩ | ⟨_, _, -, -, h⟩ | ⟨off, size, v, -, -, h⟩ <;> rw [h]
  exact writeWindow_port s off size v

/-- OKAY for an accepted access, SLVERR for a refused one (20_memory.md R54 to R58). -/
theorem perform_response {a : HostAccess} {off : BitVec 8} {size : AccessSize}
    (ha : a = .read off size ∨ ∃ v, a = .write off size v) (s : State) :
    ∃ d, (perform a s).response = some ⟨!accepted off size, d⟩ := by
  rcases ha with rfl | ⟨v, rfl⟩ <;> cases hacc : accepted off size <;> simp [perform, hacc]

/-- While a command is in flight no access reaches the operand registers. -/
theorem HostEffect.x_of_busy {s u : State} (heff : HostEffect s u) (hfly : s.inFlight ≠ none)
    (hr : resetIn s = false) : u.x = s.x := by
  cases heff with
  | reset keep hr' => simp [hr] at hr'
  | operandWrite off size v new hp hacc hoff hidle => exact absurd hidle hfly
  | portOnly | drop | issue | illegal | clear | enable | softReset => rfl

/-- Settles O49: `held_iff` says whether the access is held or performed, and a performed write to a control register
has its effect before the engine acts. -/
theorem busyHoldsOperandAndCmdAccesses : Obligations.BusyHoldsOperandAndCmdAccesses := by
  unfold Obligations.BusyHoldsOperandAndCmdAccesses
  intro s a rest off size hfly hoff ha
  have hperformed (hheld : held s a = false) : performedIn s = some a := performedIn_of_not_held hoff hheld
  refine ⟨fun ⟨hacc, hwhere⟩ => ?held, fun hwhere => ?performed, fun hacc => ?refused, fun v hav => ?status,
    fun v hav h31 => ?ctrl⟩
  case held =>
    have hheld : held s a = true := (held_iff hfly ha).mpr ⟨hacc, hwhere⟩
    have hhost := hostPhase_held hoff hheld
    exact ⟨performedIn_of_held hoff hheld, hhost, stepsBy_of_hostPhase hhost rfl⟩
  case performed =>
    have hp := hperformed (held_eq_false_of_elsewhere hfly ha hwhere)
    have hx := (hostPhase_effect s).x_of_busy hfly (resetIn_of_performed hp)
    obtain ⟨hhost, -, -⟩ := hostPhase_performed s a hp
    refine ⟨hp, ?_, hx, ?_⟩
    · rw [hhost, perform_port, hoff, List.tail_cons]
    · rw [hhost]
      exact perform_response ha _
  case refused =>
    have hp := hperformed (held_eq_false_of_refused s ha hacc)
    exact stepsBy_of_hostPhase (hostPhase_refused ha hacc hp) rfl
  case status =>
    subst hav
    have hp := hperformed (by simp [statusWrite, held])
    exact stepsBy_of_hostPhase (hostPhase_statusWrite hp) rfl
  case ctrl =>
    subst hav
    have hp := hperformed (by simp [ctrlWrite, held])
    have hhost : hostPhase s = enabledBy v (answered s ⟨false, 0⟩) :=
      (hostPhase_ctrlWrite hp).trans (if_neg (Bool.eq_false_iff.mp h31))
    exact stepsBy_of_hostPhase hhost rfl

end Sys2Proof.Machine

/-!
PROOFS. Every command ends, and then the access it held is performed (70_reset_and_hazards.md R252, 20_memory.md R60,
R63): both by induction on the remaining latency, one cycle at a time.
-/

namespace Sys2Proof.Machine

theorem run_succ_of_step {M : Host.Core} {s t : M.State} (h : M.step s = .next t) (k : Nat) :
    M.run (k + 1) s = M.run k t := by
  rw [Host.Core.run, h]

/-! ## Every command ends -/

/-- A cycle with a command in flight leads on, to a unit with BUSY = 0 or to the same command with one cycle less. -/
theorem Coherent.step_busy {s : State} (hs : Coherent s) {r : InFlight} (hr : s.inFlight = some r) :
    ∃ t, step s = .next t ∧ Coherent t ∧
      (t.inFlight = none ∨ (1 < r.remaining ∧ t.inFlight = some { r with remaining := r.remaining - 1 })) := by
  obtain ⟨t, hstep⟩ := noStopFromTheInvariant s hs
  refine ⟨t, hstep, stepKeepsTheInvariant s t hs hstep, ?_⟩
  cases step_effect hstep with
  | hostOnly hidle => exact .inl (hidle.resolve_left (by simp [hr]))
  | counts q hq _ hrem =>
    cases hr.symm.trans hq
    exact .inr ⟨hrem, rfl⟩
  | ends | fails => exact .inl rfl

theorem exists_idle_within {n : Nat} {s : State} {r : InFlight} (hs : Coherent s) (hr : s.inFlight = some r)
    (hn : r.remaining = n + 1) :
    ∃ k t, k ≤ n + 1 ∧ Host.Core.run Sys2Proof.core k s = .next t ∧ t.inFlight = none := by
  induction n generalizing s r with
  | zero =>
    obtain ⟨t, hstep, -, hidle | ⟨hrem, -⟩⟩ := hs.step_busy hr
    · exact ⟨1, t, le_rfl, run_succ_of_step (M := core) hstep 0, hidle⟩
    · omega
  | succ n ih =>
    obtain ⟨t, hstep, ht, hidle | ⟨-, hfly⟩⟩ := hs.step_busy hr
    · exact ⟨1, t, by omega, run_succ_of_step (M := core) hstep 0, hidle⟩
    · obtain ⟨k, u, hk, hrun, hidle⟩ := ih ht hfly (by simp [hn])
      exact ⟨k + 1, u, by omega, (run_succ_of_step (M := core) hstep k).trans hrun, hidle⟩

theorem Coherent.remaining_eq_succ {s : State} (hs : Coherent s) {r : InFlight} (hr : s.inFlight = some r) :
    ∃ n, r.remaining = n + 1 := by
  obtain ⟨_, -, -, hpos⟩ := hs.record r hr
  exact ⟨r.remaining - 1, by omega⟩

/-- Settles O55, by induction on the remaining latency. -/
theorem everyCommandEnds : Obligations.EveryCommandEnds := by
  unfold Obligations.EveryCommandEnds
  intro s r hs hr
  obtain ⟨n, hn⟩ := hs.remaining_eq_succ hr
  rw [hn]
  exact exists_idle_within hs hr hn

/-! ## Every held access is performed -/

/-- The outside asserts no hardware reset in the `n` cycles from `s` on. -/
def NoResetWithin (n : Nat) (s : State) : Prop := ∀ keep, Input.reset keep ∉ s.inputs.take n

theorem NoResetWithin.resetIn {n : Nat} {s : State} (h : NoResetWithin (n + 1) s) : resetIn s = false := by
  cases hi : s.inputs with
  | nil => simp [Machine.resetIn, hi]
  | cons input later =>
    cases input with
    | quiet | access => simp [Machine.resetIn, hi]
    | reset keep => exact absurd (by simp [hi]) (h keep)

theorem NoResetWithin.tail {n : Nat} {s t : State} (h : NoResetWithin (n + 1) s) (ht : t.inputs = s.inputs.tail) :
    NoResetWithin n t := by
  intro keep hmem
  cases hi : s.inputs with
  | nil => simp [ht, hi] at hmem
  | cons input later =>
    refine h keep ?_
    rw [hi, List.take_succ_cons]
    exact List.mem_cons_of_mem _ (by simpa [ht, hi] using hmem)

/-- A new access comes behind those waiting (20_memory.md R63). -/
theorem exists_offered_eq_append {s : State} (hr : resetIn s = false) : ∃ new, offered s = s.port ++ new := by
  cases hi : s.inputs with
  | nil => exact ⟨[], by simp [offered, hi]⟩
  | cons input later =>
    cases input with
    | quiet => exact ⟨[], by simp [offered, hi]⟩
    | access a => exact ⟨[a], by simp [offered, hi]⟩
    | reset keep => simp [resetIn, hi] at hr

/-- The end of a command leaves nothing in flight and the outside alone. -/
theorem exec_keeps_outside (i : Instr) (u : State) :
    ∃ t, exec i u = .next t ∧ t.inFlight = none ∧ t.port = u.port ∧ t.inputs = u.inputs := by
  rcases exec_cases i u with ⟨v, -, h⟩ | ⟨code, -, h⟩
  · exact ⟨_, h, rfl, rfl, rfl⟩
  · exact ⟨_, h, rfl, rfl, rfl⟩

/-- A cycle with a held access: the accesses offered wait at the port, and the command ends or counts down. -/
theorem Coherent.step_held {s : State} (hs : Coherent s) {r : InFlight} (hr : s.inFlight = some r) {a : HostAccess}
    {rest : List HostAccess} (hoff : offered s = a :: rest) (hheld : held s a = true) :
    ∃ t, step s = .next t ∧ t.port = a :: rest ∧ t.inputs = s.inputs.tail ∧
      ((r.remaining ≤ 1 ∧ t.inFlight = none) ∨
        (1 < r.remaining ∧ t.inFlight = some { r with remaining := r.remaining - 1 })) := by
  obtain ⟨-, hcounts, hends⟩ := stepsBy_of_hostPhase (hostPhase_held hoff hheld) rfl
  obtain ⟨i, hd, -, -⟩ := hs.record r hr
  by_cases hrem : r.remaining ≤ 1
  · obtain ⟨t, hexec, hidle, hport, hinputs⟩ :=
      exec_keeps_outside i { s with port := a :: rest, inputs := s.inputs.tail, response := none }
    exact ⟨t, (hends r i hr hrem hd).trans hexec, hport, hinputs, .inl ⟨hrem, hidle⟩⟩
  · exact ⟨_, hcounts r hr (by omega), rfl, rfl, .inr ⟨by omega, rfl⟩⟩

/-- The held access is still the oldest when the command has ended. -/
theorem exists_run_held {n : Nat} {s : State} {r : InFlight} {a : HostAccess} {rest : List HostAccess}
    (hs : Coherent s) (hr : s.inFlight = some r) (hn : r.remaining = n + 1) (hoff : offered s = a :: rest)
    (hheld : held s a = true) (hnoReset : NoResetWithin (n + 2) s) :
    ∃ t later, Host.Core.run Sys2Proof.core (n + 1) s = .next t ∧ t.inFlight = none ∧ t.port = a :: (rest ++ later) ∧
      resetIn t = false := by
  induction n generalizing s r rest with
  | zero =>
    obtain ⟨t, hstep, hport, hinputs, ⟨-, hidle⟩ | ⟨hrem, -⟩⟩ := hs.step_held hr hoff hheld
    · exact ⟨t, [], run_succ_of_step (M := core) hstep 0, hidle, by simp [hport], (hnoReset.tail hinputs).resetIn⟩
    · omega
  | succ n ih =>
    obtain ⟨t, hstep, hport, hinputs, ⟨hrem, -⟩ | ⟨-, hfly⟩⟩ := hs.step_held hr hoff hheld
    · omega
    have hnoReset' : NoResetWithin (n + 2) t := hnoReset.tail hinputs
    obtain ⟨new, hnew⟩ := exists_offered_eq_append hnoReset'.resetIn
    have hoff' : offered t = a :: (rest ++ new) := by rw [hnew, hport, List.cons_append]
    have hheld' : held t a = true := (held_congr (by simp [busy, hr, hfly]) a).trans hheld
    obtain ⟨u, later, hrun, hidle, hport', hr'⟩ :=
      ih (stepKeepsTheInvariant s t hs hstep) hfly (by simp [hn]) hoff' hheld' hnoReset'
    exact ⟨u, new ++ later, (run_succ_of_step (M := core) hstep _).trans hrun, hidle,
      by rw [hport', List.append_assoc], hr'⟩

/-- With nothing in flight the oldest access at the port is performed and answered in the next cycle. -/
theorem step_oldest_of_idle {s : State} (hidle : s.inFlight = none) (hr : resetIn s = false) {a : HostAccess}
    {rest : List HostAccess} (hport : s.port = a :: rest) {off : BitVec 8} {size : AccessSize}
    (ha : a = .read off size ∨ ∃ v, a = .write off size v) :
    performedIn s = some a ∧ ∃ u d, step s = .next u ∧ u.response = some ⟨!accepted off size, d⟩ := by
  obtain ⟨new, hnew⟩ := exists_offered_eq_append hr
  have hoff : offered s = a :: (rest ++ new) := by rw [hnew, hport, List.cons_append]
  have hp : performedIn s = some a := performedIn_of_not_held hoff (held_of_idle hidle a)
  obtain ⟨d, hresp⟩ := perform_response ha { s with port := (offered s).tail, inputs := s.inputs.tail }
  obtain ⟨hhost, -, -⟩ := hostPhase_performed s a hp
  exact ⟨hp, _, d, step_of_idle hidle, hhost ▸ hresp⟩

/-- Settles O56: the access waits at the port for as long as the command has to go, and then nothing holds it. -/
theorem heldAccessIsPerformed : Obligations.HeldAccessIsPerformed := by
  unfold Obligations.HeldAccessIsPerformed
  intro s r a rest hs hr hoff hheld hnoReset
  obtain ⟨n, hn⟩ := hs.remaining_eq_succ hr
  rw [hn] at hnoReset ⊢
  obtain ⟨t, later, hrun, hidle, hport, hreset⟩ := exists_run_held hs hr hn hoff hheld hnoReset
  obtain ⟨off, size, ha⟩ := exists_offset_size a
  obtain ⟨hacc, -⟩ := (held_iff (by simp [hr]) ha).mp hheld
  obtain ⟨hp, u, d, hstep, hresp⟩ := step_oldest_of_idle hidle hreset hport ha
  exact ⟨t, later, hrun, hidle, hport, hp, u, d, hstep, by simpa [hacc] using hresp⟩

end Sys2Proof.Machine
